-- ==== Sys2Proof/Word.lean ====
section
/-! DEFINITION. The word types of the FP128 core (spec/00_scope.md R5, R9; spec/10_state.md R24). -/

namespace Sys2Proof

/-- A 256-bit operand or result word; bit `i` has weight `2^i` (00_scope.md R9). -/
abbrev Word := BitVec 256

/-- An 8-bit command word (30_encoding.md R60). -/
abbrev Cmd := BitVec 8

/-- A 3-bit STATUS code (60_exceptions.md R201). -/
abbrev StatusCode := BitVec 3

end Sys2Proof
end

