-- ==== Sys2Proof/Machine/Operands.lean ====
section
/-! DEFINITION. The constants and the pseudocode primitives of spec/00_scope.md R6 and R10: how an operand
word is read, how a result word is written, and the exact integer functions the operations use. -/

namespace Sys2Proof.Machine

/-! ### Constants (00_scope.md R6; 90_conflicts.md C1) -/

/-- `MASK = 2^128 - 1`. -/
abbrev MASK : Int := 2 ^ 128 - 1

/-- `FIXED_ONE = 2^128`, also `BASE`. -/
abbrev FIXED_ONE : Int := 2 ^ 128

/-- `MIN_RAW = -2^255`. -/
abbrev MIN_RAW : Int := -2 ^ 255

/-- `MAX_RAW = 2^255 - 1`. -/
abbrev MAX_RAW : Int := 2 ^ 255 - 1

/-- `INT_MIN = -2^127`. -/
abbrev INT_MIN : Int := -2 ^ 127

/-- `INT_MAX = 2^127 - 1`. -/
abbrev INT_MAX : Int := 2 ^ 127 - 1

/-- `CEIL_LIMIT = 2^254`. -/
abbrev CEIL_LIMIT : Int := 2 ^ 254

/-! ### Reading operands and writing results (00_scope.md R10, R12; 30_encoding.md R64) -/

/-- `u256(w)`, the unsigned value of a word. -/
abbrev u256 (w : Word) : Nat := w.toNat

/-- `s256(w)`, the two's-complement value of a word. -/
abbrev s256 (w : Word) : Int := w.toInt

/-- `bits256(v)`, the word whose unsigned value is `v mod 2^256`. The spec defines it for `v` in
`[MIN_RAW, 2^256 - 1]` only, and no operation applies it elsewhere (log entry 12). -/
def bits256 (v : Int) : Word := BitVec.ofInt 256 v

/-! ### Exact integer functions (00_scope.md R10) -/

/-- `a >> n` on an integer: `floor(a / 2^n)`. -/
def shiftRightInt (a : Int) (n : Nat) : Int := a.fdiv (2 ^ n)

/-- `a << n` on an integer: `a * 2^n`. -/
def shiftLeftInt (a : Int) (n : Nat) : Int := a * 2 ^ n

/-- `tdiv(a, b)`: the quotient truncated toward zero. -/
def tdiv (a b : Int) : Int := a.tdiv b

/-- `trem(a, b) = a - b * tdiv(a, b)`. -/
def trem (a b : Int) : Int := a - b * tdiv a b

/-- The digits of a square root from bit `k - 1` down: `r` is the root found so far. DEDUCED: the method is
the circuit's own (00_scope.md R4 e, 44_sqrt.md R182); the value is that of R181. -/
def isqrtBits : Nat → Nat → Nat → Nat
  | 0, _, r => r
  | k + 1, n, r => isqrtBits k n (if (r + 2 ^ k) * (r + 2 ^ k) ≤ n then r + 2 ^ k else r)

/-- `isqrt(n)`: the greatest `s` with `s * s <= n`, for `n < 2^256` (00_scope.md R10; 44_sqrt.md R181). -/
def isqrt (n : Nat) : Nat := isqrtBits 128 n 0

/-- Zero bits above the most significant set bit of a `k`-bit number (45_bitcount.md R190). -/
def clzBits : Nat → Nat → Nat
  | 0, _ => 0
  | k + 1, n => if 2 ^ k ≤ n then 0 else clzBits k n + 1

/-- `clz256(w)` of the word with unsigned value `n`; 256 at 0 (00_scope.md R10). -/
def clz256 (n : Nat) : Nat := clzBits 256 n

/-- Zero bits below the least significant set bit of a `k`-bit number (45_bitcount.md R191). -/
def ctzBits : Nat → Nat → Nat
  | 0, _ => 0
  | k + 1, n => if n % 2 = 1 then 0 else ctzBits k (n / 2) + 1

/-- `ctz256(w)` of the word with unsigned value `n`; 256 at 0 (00_scope.md R10). -/
def ctz256 (n : Nat) : Nat := ctzBits 256 n

end Sys2Proof.Machine
end

