-- ==== Sys2Proof/Syntax.lean ====
section
/-! DEFINITION. The commands of the core as syntax: one constructor per row of spec/opcode_table.json
(spec/30_encoding.md R63), with the rounding flags where the row takes them (R61). -/

namespace Sys2Proof

/-- The two per-command options of 30_encoding.md R61: `ru` is `ROUND_UP`, `ido` is
`IGNORE_DECIMAL_OVERFLOW`. -/
structure RoundingFlags where
  ru : Bool
  ido : Bool
  deriving DecidableEq, Repr

/-- Flags value `0` of the source's scenarios: `RU = 0, IDO = 0` (30_encoding.md R61). -/
def RoundingFlags.zero : RoundingFlags := ⟨false, false⟩

/-- The 21 operations in the order of 30_encoding.md R63. Operands are not syntax: they are the words
latched with the command (R64). -/
inductive Instr where
  | fromInt
  | toInt
  | fromUInt
  | toUInt
  | add
  | sub
  | neg
  | abs
  | ceil
  | mulMag (f : RoundingFlags)
  | mul (f : RoundingFlags)
  | mulInt
  | square
  | divMag (f : RoundingFlags)
  | div (f : RoundingFlags)
  | divInt (f : RoundingFlags)
  | sqrt
  | sqrtU
  | clz
  | ctz
  | fixed1
  deriving DecidableEq, Repr

end Sys2Proof
end

