-- ==== Sys2Proof/Machine/Flags.lean ====
section
/-! DEFINITION. Error kinds and STATUS codes (spec/60_exceptions.md R200, R201), what an operation answers
(spec/00_scope.md R11), and the computations on the two rounding flags and on ranges that several operations
share (spec/00_scope.md R13, R14, R15). The core has no condition flags (spec/10_state.md R28). -/

namespace Sys2Proof.Machine

/-- The error kinds of 60_exceptions.md R200. -/
inductive ErrKind where
  | rangeError
  | overflowError
  | divisionByZeroError
  | precisionError
  | precisionLossError
  | domainError
  | illegalCommand
  deriving DecidableEq, Repr

/-- The STATUS code of `OK` (60_exceptions.md R201). -/
def statusOk : StatusCode := 0

/-- The STATUS code of an error kind (60_exceptions.md R201). -/
def ErrKind.code : ErrKind → StatusCode
  | .rangeError => 1
  | .overflowError => 2
  | .divisionByZeroError => 3
  | .precisionError => 4
  | .precisionLossError => 5
  | .domainError => 6
  | .illegalCommand => 7

/-- What a STATUS code says: no error for `OK`, else the kind (60_exceptions.md R201; all eight codes are
used). -/
def statusKind (c : StatusCode) : Option ErrKind :=
  match c.toNat with
  | 1 => some .rangeError
  | 2 => some .overflowError
  | 3 => some .divisionByZeroError
  | 4 => some .precisionError
  | 5 => some .precisionLossError
  | 6 => some .domainError
  | 7 => some .illegalCommand
  | _ => none

/-- How an operation ends (00_scope.md R11): `return v`, or `raise K`. -/
abbrev Answer := Except ErrKind Int

/-- A signed result: the exact value, or `OverflowError` outside `[MIN_RAW, MAX_RAW]` (00_scope.md R13;
41_additive.md R120). -/
def signedOrOverflow (r : Int) : Answer :=
  if r < MIN_RAW ∨ MAX_RAW < r then .error .overflowError else .ok r

/-- `ROUND_UP` on a truncated magnitude: one raw unit when a nonzero remainder was truncated and the result
is below `MAX_RAW` (00_scope.md R14; 42_multiply.md R140, 43_divide.md R160). -/
def roundUpMag (f : RoundingFlags) (inexact : Bool) (r : Nat) : Nat :=
  if f.ru ∧ inexact ∧ (r : Int) < MAX_RAW then r + 1 else r

/-- `ROUND_UP` on a truncated signed quotient (43_divide.md R162). -/
def roundUpInt (f : RoundingFlags) (inexact : Bool) (q : Int) : Int :=
  if f.ru ∧ inexact ∧ q < MAX_RAW then q + 1 else q

/-- The sign and top-bit step that ends `MUL` and `DIV` (42_multiply.md R141, 43_divide.md R161): a
magnitude with its top bit set is `OverflowError`, else it gets the combined sign of the operands. -/
def reattachSign (a b : Int) (mag : Except ErrKind Nat) : Answer :=
  match mag with
  | .error k => .error k
  | .ok r =>
    if 2 ^ 255 ≤ r then .error .overflowError
    else if decide (a < 0) != decide (b < 0) then .ok (-(r : Int)) else .ok r

end Sys2Proof.Machine
end

