-- ==== Sys2Proof/Config.lean ====
section
/-! DEFINITION. What the spec leaves to the implementation: the open parameter `LATENCY` of
spec/00_scope.md R5 and spec/70_reset_and_hazards.md R229, as a constant with no body. -/

namespace Sys2Proof

/-- The cycles of `LATENCY(op, A, B)` beyond the first, for each command word and operand pair
(70_reset_and_hazards.md R229: a finite integer of at least 1, possibly data-dependent). A free value:
nothing can be proved about it. Log entry 2. -/
opaque Config.extraLatency : Cmd → Word → Word → Nat

end Sys2Proof
end

