-- ==== Sys2Proof/WellFormed.lean ====
section
/-! DEFINITION. What a legal command is: the three checks of spec/30_encoding.md R66 on an 8-bit command
word, and the same condition on an instruction as syntax. The types of `Instr` leave no ill-formed
instruction; the ill-formed terms are command words. -/

namespace Sys2Proof

/-- Whether the operation takes the flags field (30_encoding.md R63 column `F`, R67 `TakesFlags`). -/
def Instr.takesFlags : Instr → Bool
  | .fromInt => false
  | .toInt => false
  | .fromUInt => false
  | .toUInt => false
  | .add => false
  | .sub => false
  | .neg => false
  | .abs => false
  | .ceil => false
  | .mulMag _ => true
  | .mul _ => true
  | .mulInt => false
  | .square => false
  | .divMag _ => true
  | .div _ => true
  | .divInt _ => true
  | .sqrt => false
  | .sqrtU => false
  | .clz => false
  | .ctz => false
  | .fixed1 => false

/-- The flags a command carries: those of its word, `0` where the operation takes none (30_encoding.md R66 c). -/
def Instr.flags : Instr → RoundingFlags
  | .fromInt => .zero
  | .toInt => .zero
  | .fromUInt => .zero
  | .toUInt => .zero
  | .add => .zero
  | .sub => .zero
  | .neg => .zero
  | .abs => .zero
  | .ceil => .zero
  | .mulMag f => f
  | .mul f => f
  | .mulInt => .zero
  | .square => .zero
  | .divMag f => f
  | .div f => f
  | .divInt f => f
  | .sqrt => .zero
  | .sqrtU => .zero
  | .clz => .zero
  | .ctz => .zero
  | .fixed1 => .zero

/-- 30_encoding.md R66 (a): the reserved bit `CMD[7]` is 0. -/
def reservedBitClear (c : Cmd) : Bool := c.toNat < 128

/-- 30_encoding.md R66 (b): `OP` is one of `0x01` to `0x15`. -/
def opAssigned (c : Cmd) : Bool := 1 ≤ c.toNat % 32 && c.toNat % 32 ≤ 21

/-- 30_encoding.md R66 (c): the flags field `CMD[6:5]` is 0, or `OP` names one of the five operations that
take flags. -/
def flagsAllowed (c : Cmd) : Bool :=
  c.toNat / 32 % 4 == 0 || [0x0A, 0x0B, 0x0E, 0x0F, 0x10].contains (c.toNat % 32)

/-- A legal command word (30_encoding.md R66). -/
def wordLegal (c : Cmd) : Bool := reservedBitClear c && opAssigned c && flagsAllowed c

end Sys2Proof
end

