-- ==== Sys2Proof/Decode.lean ====
section
/-! DEFINITION. Decoding and encoding of command words (spec/30_encoding.md R60 to R67): total on all 256
words, each illegal word rejected by the reason of R66 it meets first. -/

namespace Sys2Proof

/-- Why a word is illegal: the three reasons of 30_encoding.md R66. The reason is the model's report; the
core shows only `IllegalCommand` (60_exceptions.md R202). -/
inductive IllegalWord where
  /-- R66 (a): `CMD[7] = 1`. -/
  | reservedBit
  /-- R66 (b): `OP` is 0x00 or 0x16 to 0x1F. -/
  | reservedOp
  /-- R66 (c): flags on an operation that takes none. -/
  | flagsNotTaken
  deriving DecidableEq, Repr

/-- Field `OP`, bits `[4:0]` (30_encoding.md R60). -/
def Cmd.op (c : Cmd) : Nat := (c.extractLsb' 0 5).toNat

/-- Fields `RU`, bit 5, and `IDO`, bit 6 (30_encoding.md R60, R61). -/
def Cmd.flags (c : Cmd) : RoundingFlags := ⟨c.getLsbD 5, c.getLsbD 6⟩

/-- Field `RSV`, bit 7 (30_encoding.md R60). -/
def Cmd.rsv (c : Cmd) : Bool := c.getLsbD 7

/-- The opcode map of 30_encoding.md R63, with the word's flags for the rows that take them. -/
def opcodeMap (op : Nat) (f : RoundingFlags) : Option Instr :=
  match op with
  | 0x01 => some .fromInt
  | 0x02 => some .toInt
  | 0x03 => some .fromUInt
  | 0x04 => some .toUInt
  | 0x05 => some .add
  | 0x06 => some .sub
  | 0x07 => some .neg
  | 0x08 => some .abs
  | 0x09 => some .ceil
  | 0x0A => some (.mulMag f)
  | 0x0B => some (.mul f)
  | 0x0C => some .mulInt
  | 0x0D => some .square
  | 0x0E => some (.divMag f)
  | 0x0F => some (.div f)
  | 0x10 => some (.divInt f)
  | 0x11 => some .sqrt
  | 0x12 => some .sqrtU
  | 0x13 => some .clz
  | 0x14 => some .ctz
  | 0x15 => some .fixed1
  | _ => none

/-- `Decode` of 30_encoding.md R67, in its order of tests. -/
def decode (c : Cmd) : Except IllegalWord Instr :=
  if c.rsv then .error .reservedBit
  else
    match opcodeMap c.op c.flags with
    | none => .error .reservedOp
    | some i => if !i.takesFlags && c.flags != .zero then .error .flagsNotTaken else .ok i

/-- The `OP` number of an operation (30_encoding.md R63). -/
def Instr.opNumber : Instr → Nat
  | .fromInt => 0x01
  | .toInt => 0x02
  | .fromUInt => 0x03
  | .toUInt => 0x04
  | .add => 0x05
  | .sub => 0x06
  | .neg => 0x07
  | .abs => 0x08
  | .ceil => 0x09
  | .mulMag _ => 0x0A
  | .mul _ => 0x0B
  | .mulInt => 0x0C
  | .square => 0x0D
  | .divMag _ => 0x0E
  | .div _ => 0x0F
  | .divInt _ => 0x10
  | .sqrt => 0x11
  | .sqrtU => 0x12
  | .clz => 0x13
  | .ctz => 0x14
  | .fixed1 => 0x15

/-- A command word from its fields: `RSV = 0`, then `IDO`, `RU` and `OP` (30_encoding.md R60). -/
def packWord (op : Nat) (f : RoundingFlags) : Cmd :=
  BitVec.ofNat 8 (op + (if f.ru then 0x20 else 0) + (if f.ido then 0x40 else 0))

/-- The command word of an instruction (30_encoding.md R60, R63). -/
def encode (i : Instr) : Cmd := packWord i.opNumber i.flags

/-- The decoder on a table word: `w` is the one byte of the command word, every row being 8 bits long
(30_encoding.md R62). -/
def decodeTableWord (nbits w : Nat) : Option Instr :=
  (decode (BitVec.ofNat 8 (w % 2 ^ nbits))).toOption

end Sys2Proof
end

