-- ==== Sys2Proof/Machine/State.lean ====
section
/-! DEFINITION. The state of the core as plain data (spec/10_state.md R23, R24, R29; spec/70_reset_and_hazards.md
R220 to R222), the state right after reset, and the reasons a step can stop. The core has no memory, no
registers file and no program counter (spec/10_state.md R20 to R22; spec/20_memory.md R40). -/

namespace Sys2Proof.Machine

/-- The input ports of 10_state.md R23 as they stand at one rising edge of `clk`. -/
structure Pins where
  /-- synchronous reset, active high (70_reset_and_hazards.md R220) -/
  rst : Bool
  /-- request to accept the command on `cmd`, `a`, `b` (10_state.md R25) -/
  start : Bool
  cmd : Cmd
  a : Word
  b : Word
  deriving DecidableEq, Repr

/-- The ports of a host that asks for nothing. DESIGN CHOICE (log 4): what is sampled past the end of
`State.pins`. -/
def Pins.idle : Pins := ⟨false, false, 0, 0, 0⟩

/-- The state of the core: the seven registers of 10_state.md R24, its internal working state (R29), the
reset history that 70_reset_and_hazards.md R222 asks for, and what the host drives at the coming edges. -/
structure State where
  /-- `BUSY`: a command is in flight. -/
  busy : Bool
  /-- `RVALID`: RESULT and STATUS hold the outcome of the last command. -/
  rvalid : Bool
  /-- `RESULT`. -/
  result : Word
  /-- `STATUS` (60_exceptions.md R201). -/
  status : StatusCode
  /-- `CMD_L`, the latched command word (hidden). -/
  cmdL : Cmd
  /-- `A_L`, the latched operand A (hidden). -/
  aL : Word
  /-- `B_L`, the latched operand B (hidden). -/
  bL : Word
  /-- The working state of a command in flight (10_state.md R29): the rising edges left until its
  completion edge, that edge counted. Log entries 2 and 3. -/
  remaining : Nat
  /-- An edge with `rst = 1` has happened since power-up (70_reset_and_hazards.md R222). Log entry 5. -/
  resetDone : Bool
  /-- The input ports at the coming edges, the next edge first; idle past the end. Log entry 4. -/
  pins : List Pins
  deriving DecidableEq, Repr

/-- Why the machine stops. -/
inductive Fault where
  /-- Raised by a rising edge with `rst = 0` before the first reset after power-up: the spec gives the core
  no state there (70_reset_and_hazards.md R222; 93_implementation_defined.md section 3, treatment `stuck`).
  Safe: the model stops where hardware goes on from a state nobody specified. Log entry 5. -/
  | stateUnspecified
  deriving DecidableEq, Repr

/-- Why a command has no meaning in the model. -/
inductive Refusal where
  /-- Raised by an arm of `exec` whose instruction has no meaning yet; no arm of this model raises it. Safe:
  the model stops. -/
  | notModelled (mnemonic : String)
  deriving DecidableEq, Repr

/-- The state right after a reset edge (70_reset_and_hazards.md R220, R221). BUSY, RVALID, RESULT and STATUS
are the spec's 0. The latches and the working state are unspecified there: the zeros given are DESIGN CHOICE
(log entries 1 and 3), and so is the silent host (log entry 4). -/
def State.reset : State where
  busy := false
  rvalid := false
  result := 0
  status := 0
  cmdL := 0
  aL := 0
  bL := 0
  remaining := 0
  resetDone := true
  pins := []

end Sys2Proof.Machine
end

