-- ==== Sys2Proof/Machine/Ops.lean ====
section
/-! DEFINITION. The named operations on the state: sampling the input ports, reset, acceptance, a working
edge, completion with a result or with an error (spec/10_state.md R23 to R27; spec/60_exceptions.md R203,
R204; spec/70_reset_and_hazards.md R220, R224), and what the host reads. The core has no trap
(spec/60_exceptions.md R208): `State.raise`, which ends a command with an error status, is all that an error
does, and nothing returns from it. -/

namespace Sys2Proof.Machine

/-! ### What the host reads -/

/-- The output ports of 10_state.md R23. -/
structure Outputs where
  busy : Bool
  rvalid : Bool
  result : Word
  status : StatusCode
  deriving DecidableEq, Repr

/-- The outputs are driven from the registers and from nothing else (10_state.md R23). -/
def State.outputs (s : State) : Outputs := ⟨s.busy, s.rvalid, s.result, s.status⟩

/-- The outcome as the host may read it: none while `RVALID = 0` (10_state.md R27; 70_reset_and_hazards.md
R225). -/
def State.outcome (s : State) : Option (Word × StatusCode) :=
  match s.rvalid with
  | true => some (s.result, s.status)
  | false => none

/-! ### The input ports -/

/-- The input ports sampled at the next edge; an idle host past the end of the list (log entry 4). -/
def State.sampled (s : State) : Pins :=
  match s.pins with
  | [] => .idle
  | p :: _ => p

/-- The edge is over: the host drives the next entry. -/
def State.advancePins (s : State) : State := { s with pins := s.pins.tail }

/-! ### Reset, acceptance, waiting -/

/-- A reset edge (70_reset_and_hazards.md R220): the reset state, whatever the core was doing. The host goes
on driving its ports. -/
def State.applyReset (s : State) : State := { State.reset with pins := s.pins }

/-- `LATENCY(op, A, B)`: at least 1, otherwise open (00_scope.md R5; 70_reset_and_hazards.md R229; log
entry 2). -/
def latency (c : Cmd) (a b : Word) : Nat := 1 + Config.extraLatency c a b

/-- Acceptance (10_state.md R25): the command and both operands are latched, `BUSY` is set, `RVALID`
cleared, RESULT and STATUS kept; `LATENCY` edges are left until completion (R26). -/
def State.accept (s : State) (c : Cmd) (a b : Word) : State :=
  { s with cmdL := c, aL := a, bL := b, busy := true, rvalid := false, remaining := latency c a b }

/-- An edge on which the command in flight goes on working: no port shows it (10_state.md R26, R29). -/
def State.work (s : State) : State := { s with remaining := s.remaining - 1 }

/-! ### Completion -/

/-- The completion write (10_state.md R26; 20_memory.md R45): RESULT, STATUS, `BUSY <- 0` and `RVALID <- 1`
in one step. -/
def State.complete (s : State) (r : Word) (st : StatusCode) : State :=
  { s with result := r, status := st, busy := false, rvalid := true }

/-- `return v` (00_scope.md R11; 60_exceptions.md R203): RESULT is `bits256(v)`, STATUS is `OK`. -/
def State.returnValue (s : State) (v : Int) : State := s.complete (bits256 v) statusOk

/-- `raise K` (00_scope.md R11; 60_exceptions.md R203, R204): RESULT is 0, STATUS is the kind's code. -/
def State.raise (s : State) (k : ErrKind) : State := s.complete 0 k.code

/-- How an operation's answer reaches RESULT and STATUS (60_exceptions.md R203). -/
def State.finish (s : State) (ans : Answer) : State :=
  match ans with
  | .ok v => s.returnValue v
  | .error k => s.raise k

/-- A command whose word is illegal completes with `IllegalCommand` and computes nothing
(60_exceptions.md R202). -/
def execIllegal (s : State) : Host.Outcome State Fault Refusal := .next (s.raise .illegalCommand)

/-! ### What a rising edge does -/

/-- What one rising edge of `clk` is (10_state.md R25, R26; 70_reset_and_hazards.md R220, R222, R224). -/
inductive Edge where
  /-- `rst = 1` (R220) -/
  | reset
  /-- `rst = 0` before the first reset: no specified state (R222) -/
  | unspecified
  /-- the completion edge of the command in flight (R26); a `start` is dropped (R224) -/
  | completion
  /-- an earlier edge of the command in flight; a `start` is dropped (R224) -/
  | working
  /-- the acceptance of the command on the ports (R25) -/
  | acceptance
  /-- `start = 0` and `BUSY = 0`: nothing changes (R25) -/
  | idle
  deriving DecidableEq, Repr

/-- Which of them the next edge is. Reset comes before completion and acceptance (R220); `BUSY` before the
edge decides whether a `start` is looked at (R224). -/
def State.edge (s : State) : Edge :=
  if s.sampled.rst then .reset
  else if !s.resetDone then .unspecified
  else if s.busy then (if s.remaining ≤ 1 then .completion else .working)
  else if s.sampled.start then .acceptance
  else .idle

/-- The command on the ports is accepted and the host goes on to its next entry. -/
def State.acceptSampled (s : State) : State :=
  s.advancePins.accept s.sampled.cmd s.sampled.a s.sampled.b

end Sys2Proof.Machine
end

