-- ==== Sys2Proof/Machine/Additive.lean ====
section
/-! DEFINITION. The adder/subtractor, the negator/absolute-value unit and the ceiling: ADD, SUB, NEG, ABS, CEIL
(spec/41_additive.md R120 to R124). -/

namespace Sys2Proof.Machine

/-- 41_additive.md R120. -/
def addOp (a b : Int) : Answer := signedOrOverflow (a + b)

/-- 41_additive.md R121. -/
def subOp (a b : Int) : Answer := signedOrOverflow (a - b)

/-- 41_additive.md R122. -/
def negOp (x : Int) : Answer := if x = MIN_RAW then .error .overflowError else .ok (-x)

/-- 41_additive.md R123. -/
def absOp (x : Int) : Answer := if x = MIN_RAW then .error .overflowError else .ok (x.natAbs : Int)

/-- 41_additive.md R124: the threshold is tested first, on every operand. -/
def ceilOp (x : Int) : Answer :=
  if CEIL_LIMIT ≤ x then .error .overflowError
  else .ok (shiftLeftInt (shiftRightInt (x + MASK) 128) 128)

/-- ADD (41_additive.md R120). -/
def execAdd (s : State) : Host.Outcome State Fault Refusal := .next (s.finish (addOp (s256 s.aL) (s256 s.bL)))

/-- SUB (41_additive.md R121). -/
def execSub (s : State) : Host.Outcome State Fault Refusal := .next (s.finish (subOp (s256 s.aL) (s256 s.bL)))

/-- NEG (41_additive.md R122). -/
def execNeg (s : State) : Host.Outcome State Fault Refusal := .next (s.finish (negOp (s256 s.aL)))

/-- ABS (41_additive.md R123). -/
def execAbs (s : State) : Host.Outcome State Fault Refusal := .next (s.finish (absOp (s256 s.aL)))

/-- CEIL (41_additive.md R124). -/
def execCeil (s : State) : Host.Outcome State Fault Refusal := .next (s.finish (ceilOp (s256 s.aL)))

end Sys2Proof.Machine
end

