-- ==== Sys2Proof/Machine/BitCount.lean ====
section
/-! DEFINITION. The bit-counting unit: CLZ, CTZ (spec/45_bitcount.md R190, R191). -/

namespace Sys2Proof.Machine

/-- 45_bitcount.md R190. -/
def clzOp (x : Nat) : Answer := .ok (clz256 x)

/-- 45_bitcount.md R191. -/
def ctzOp (x : Nat) : Answer := .ok (ctz256 x)

/-- CLZ (45_bitcount.md R190). -/
def execClz (s : State) : Host.Outcome State Fault Refusal := .next (s.finish (clzOp (u256 s.aL)))

/-- CTZ (45_bitcount.md R191). -/
def execCtz (s : State) : Host.Outcome State Fault Refusal := .next (s.finish (ctzOp (u256 s.aL)))

end Sys2Proof.Machine
end

