-- ==== Sys2Proof/Machine/Conversion.lean ====
section
/-! DEFINITION. The converter: FROMINT, TOINT, FROMUINT, TOUINT, FIXED1 (spec/40_conversion.md R100 to R104).
One pure function per rule's pseudocode, and the meaning that reads the latched operands and completes. -/

namespace Sys2Proof.Machine

/-- 40_conversion.md R100. -/
def fromIntOp (x : Int) : Answer :=
  if x < INT_MIN ∨ INT_MAX < x then .error .rangeError else .ok (shiftLeftInt x 128)

/-- 40_conversion.md R101. -/
def toIntOp (x : Int) : Answer := .ok (shiftRightInt x 128)

/-- 40_conversion.md R102. -/
def fromUIntOp (x : Nat) : Answer :=
  if INT_MAX < (x : Int) then .error .rangeError else .ok (shiftLeftInt x 128)

/-- 40_conversion.md R103. -/
def toUIntOp (x : Int) : Answer :=
  if x < 0 then .error .rangeError else .ok (shiftRightInt x 128)

/-- 40_conversion.md R104. -/
def fixed1Op : Answer := .ok FIXED_ONE

/-- FROMINT (40_conversion.md R100). -/
def execFromInt (s : State) : Host.Outcome State Fault Refusal := .next (s.finish (fromIntOp (s256 s.aL)))

/-- TOINT (40_conversion.md R101). -/
def execToInt (s : State) : Host.Outcome State Fault Refusal := .next (s.finish (toIntOp (s256 s.aL)))

/-- FROMUINT (40_conversion.md R102). -/
def execFromUInt (s : State) : Host.Outcome State Fault Refusal := .next (s.finish (fromUIntOp (u256 s.aL)))

/-- TOUINT (40_conversion.md R103). -/
def execToUInt (s : State) : Host.Outcome State Fault Refusal := .next (s.finish (toUIntOp (s256 s.aL)))

/-- FIXED1 (40_conversion.md R104). -/
def execFixed1 (s : State) : Host.Outcome State Fault Refusal := .next (s.finish fixed1Op)

end Sys2Proof.Machine
end

