-- ==== Sys2Proof/Machine/Divide.lean ====
section
/-! DEFINITION. The divider: DIVMAG, DIV, DIVINT (spec/43_divide.md R160 to R162). -/

namespace Sys2Proof.Machine

/-- The re-scale of 43_divide.md R160: the quotient `q`, which has precision `p`, shifted to 128 fractional
bits. -/
def rescale (q p : Nat) : Nat := if 128 ≤ p then q >>> (p - 128) else q <<< (128 - p)

/-- 43_divide.md R160: zero divisor, zero dividend, precision budget, normalised division, re-scale with its
overflow, precision-loss test on the truncated result, then `ROUND_UP`. -/
def divMagOp (x y : Nat) (f : RoundingFlags) : Except ErrKind Nat :=
  if y = 0 then .error .divisionByZeroError
  else if x = 0 then .ok 0
  else
    let lz := clz256 x
    let tz := ctz256 y
    let p := lz + tz
    if p < 64 then .error .precisionError
    else
      let xn := x <<< lz
      let yn := y >>> tz
      let q := xn / yn
      let r := rescale q p
      if p < 128 ∧ 2 ^ 256 ≤ r then .error .overflowError
      else if f.ido = false ∧ r = 0 then .error .precisionLossError
      else .ok (roundUpMag f (r * y != x * 2 ^ 128) r)

/-- 43_divide.md R161: `abs` of A, `abs` of B, the magnitude divide, the top-bit test, the sign. -/
def divOp (a b : Int) (f : RoundingFlags) : Answer :=
  if a = MIN_RAW then .error .overflowError
  else if b = MIN_RAW then .error .overflowError
  else reattachSign a b (divMagOp a.natAbs b.natAbs f)

/-- 43_divide.md R162: the precision-loss test only for a positive dividend, `ROUND_UP` toward plus
infinity. -/
def divIntOp (a b : Int) (f : RoundingFlags) : Answer :=
  if b = 0 then .error .divisionByZeroError
  else if a = MIN_RAW ∧ b = -1 then .error .overflowError
  else
    let q := tdiv a b
    let rem := trem a b
    if f.ido = false ∧ 0 < a ∧ q = 0 then .error .precisionLossError
    else .ok (roundUpInt f (rem != 0) q)

/-- DIVMAG (43_divide.md R160). -/
def execDivMag (f : RoundingFlags) (s : State) : Host.Outcome State Fault Refusal :=
  .next (s.finish ((divMagOp (u256 s.aL) (u256 s.bL) f).map Int.ofNat))

/-- DIV (43_divide.md R161). -/
def execDiv (f : RoundingFlags) (s : State) : Host.Outcome State Fault Refusal :=
  .next (s.finish (divOp (s256 s.aL) (s256 s.bL) f))

/-- DIVINT (43_divide.md R162). -/
def execDivInt (f : RoundingFlags) (s : State) : Host.Outcome State Fault Refusal :=
  .next (s.finish (divIntOp (s256 s.aL) (s256 s.bL) f))

end Sys2Proof.Machine
end

