-- ==== Sys2Proof/Machine/Multiply.lean ====
section
/-! DEFINITION. The multiplier: MULMAG, MUL, MULINT, SQUARE (spec/42_multiply.md R140 to R143). -/

namespace Sys2Proof.Machine

/-- 42_multiply.md R140: overflow outside the 256-bit window of the 512-bit product (`P >= 2^384` is
`P >> 128 >= 2^256`), then the precision-loss test on the truncated result, then `ROUND_UP`. -/
def mulMagOp (x y : Nat) (f : RoundingFlags) : Except ErrKind Nat :=
  let p := x * y
  let r := p / 2 ^ 128
  let rem := p % 2 ^ 128
  if 2 ^ 256 ≤ r then .error .overflowError
  else if f.ido = false ∧ x ≠ 0 ∧ y ≠ 0 ∧ r = 0 then .error .precisionLossError
  else .ok (roundUpMag f (rem != 0) r)

/-- 42_multiply.md R141: zero test, `abs` of A, `abs` of B, the magnitude multiply, the top-bit test, the
sign. -/
def mulOp (a b : Int) (f : RoundingFlags) : Answer :=
  if a = 0 ∨ b = 0 then .ok 0
  else if a = MIN_RAW then .error .overflowError
  else if b = MIN_RAW then .error .overflowError
  else reattachSign a b (mulMagOp a.natAbs b.natAbs f)

/-- 42_multiply.md R142. -/
def mulIntOp (x y : Int) : Answer := if x = 0 then .ok 0 else signedOrOverflow (x * y)

/-- 42_multiply.md R143. -/
def squareOp (x : Int) : Answer := mulOp x x .zero

/-- MULMAG (42_multiply.md R140). -/
def execMulMag (f : RoundingFlags) (s : State) : Host.Outcome State Fault Refusal :=
  .next (s.finish ((mulMagOp (u256 s.aL) (u256 s.bL) f).map Int.ofNat))

/-- MUL (42_multiply.md R141). -/
def execMul (f : RoundingFlags) (s : State) : Host.Outcome State Fault Refusal :=
  .next (s.finish (mulOp (s256 s.aL) (s256 s.bL) f))

/-- MULINT (42_multiply.md R142). -/
def execMulInt (s : State) : Host.Outcome State Fault Refusal :=
  .next (s.finish (mulIntOp (s256 s.aL) (s256 s.bL)))

/-- SQUARE (42_multiply.md R143). -/
def execSquare (s : State) : Host.Outcome State Fault Refusal := .next (s.finish (squareOp (s256 s.aL)))

end Sys2Proof.Machine
end

