-- ==== Sys2Proof/Machine/SquareRoot.lean ====
section
/-! DEFINITION. The square-root approximator: SQRT, SQRTU (spec/44_sqrt.md R180, R181), and the reference
algorithm of R182, which fixes no result of its own. -/

namespace Sys2Proof.Machine

/-- 44_sqrt.md R181. -/
def sqrtUOp (n : Nat) : Answer := .ok (isqrt n)

/-- 44_sqrt.md R180, its unreachable `PrecisionError` test kept. -/
def sqrtOp (x : Int) : Answer :=
  if x < 0 then .error .domainError
  else
    let root := isqrt x.toNat
    if root = 0 ∧ x ≠ 0 then .error .precisionError else .ok (shiftLeftInt root 64)

/-- The reference loop of 44_sqrt.md R182 with at most `fuel` iterations: `none` if it is not done by then.
No operation uses it. -/
def newtonLoop (n : Nat) : Nat → Nat → Nat → Option Nat
  | 0, x, y => if x ≤ y then some x else none
  | fuel + 1, x, y =>
    if x ≤ y then some x else newtonLoop n fuel ((x + y) / 2) (n / ((x + y) / 2))

/-- SQRT (44_sqrt.md R180). -/
def execSqrt (s : State) : Host.Outcome State Fault Refusal := .next (s.finish (sqrtOp (s256 s.aL)))

/-- SQRTU (44_sqrt.md R181). -/
def execSqrtU (s : State) : Host.Outcome State Fault Refusal := .next (s.finish (sqrtUOp (u256 s.aL)))

end Sys2Proof.Machine
end

