-- ==== Sys2Proof/Machine/Dispatch.lean ====
section
/-! DEFINITION. The meaning of each operation of spec/30_encoding.md R63: one arm per constructor of Instr. -/

namespace Sys2Proof.Machine

def exec (i : Instr) (s : State) : Host.Outcome State Fault Refusal :=
  match i with
  | .fromInt => Sys2Proof.Machine.execFromInt s
  | .toInt => Sys2Proof.Machine.execToInt s
  | .fromUInt => Sys2Proof.Machine.execFromUInt s
  | .toUInt => Sys2Proof.Machine.execToUInt s
  | .add => Sys2Proof.Machine.execAdd s
  | .sub => Sys2Proof.Machine.execSub s
  | .neg => Sys2Proof.Machine.execNeg s
  | .abs => Sys2Proof.Machine.execAbs s
  | .ceil => Sys2Proof.Machine.execCeil s
  | .mulMag f => Sys2Proof.Machine.execMulMag f s
  | .mul f => Sys2Proof.Machine.execMul f s
  | .mulInt => Sys2Proof.Machine.execMulInt s
  | .square => Sys2Proof.Machine.execSquare s
  | .divMag f => Sys2Proof.Machine.execDivMag f s
  | .div f => Sys2Proof.Machine.execDiv f s
  | .divInt f => Sys2Proof.Machine.execDivInt f s
  | .sqrt => Sys2Proof.Machine.execSqrt s
  | .sqrtU => Sys2Proof.Machine.execSqrtU s
  | .clz => Sys2Proof.Machine.execClz s
  | .ctz => Sys2Proof.Machine.execCtz s
  | .fixed1 => Sys2Proof.Machine.execFixed1 s

end Sys2Proof.Machine
end

