-- ==== Sys2Proof/Machine/Step.lean ====
section
/-! DEFINITION. One step: one rising edge of `clk` (spec/10_state.md R23, R25, R26; spec/70_reset_and_hazards.md
R220, R222, R224), and the state in which the next edge completes a given command word. -/

namespace Sys2Proof.Machine

/-- The next rising edge. At the completion edge the latched word is decoded and its meaning run on the
latched operands (60_exceptions.md R203); an illegal word completes with `IllegalCommand` (R202). -/
def step (s : State) : Host.Outcome State Fault Refusal :=
  match s.edge with
  | .reset => .next s.advancePins.applyReset
  | .unspecified => .fault .stateUnspecified
  | .completion =>
    match decode s.cmdL with
    | .ok i => exec i s.advancePins
    | .error _ => execIllegal s.advancePins
  | .working => .next s.advancePins.work
  | .acceptance => .next s.acceptSampled
  | .idle => .next s.advancePins

/-- The core with the command word `w` in flight on the operands already latched and its completion due at
the next edge, at which the host does not assert reset: the next step runs exactly that command. The core
fetches nothing (10_state.md R21), so this stands for the acceptance of the word. Log entry 6. -/
def State.withFetchWord (s : State) (nbits w : Nat) : State :=
  { s with
    cmdL := BitVec.ofNat 8 (w % 2 ^ nbits)
    busy := true
    rvalid := false
    remaining := 1
    resetDone := true
    pins := match s.pins with
      | [] => []
      | p :: ps => { p with rst := false } :: ps }

end Sys2Proof.Machine
end

