-- ==== Sys2Proof/Machine/Assembly.lean ====
section
/-! DEFINITION. The assembly notation of spec/30_encoding.md R68 and R69: from a line (name, suffixes, operands)
to the command word and the operand words the host drives, first for a line as a syntax tree, then for its text
(log entry 10). The core never sees a line. -/

namespace Sys2Proof.Machine

/-- The named constants a constant expression may use (30_encoding.md R68; 00_scope.md R6). -/
inductive AsmConst where
  | minRaw
  | maxRaw
  | intMin
  | intMax
  | fixedOne
  | ceilLimit
  deriving DecidableEq, Repr

/-- Their values (00_scope.md R6). -/
def AsmConst.value : AsmConst → Int
  | .minRaw => MIN_RAW
  | .maxRaw => MAX_RAW
  | .intMin => INT_MIN
  | .intMax => INT_MAX
  | .fixedOne => FIXED_ONE
  | .ceilLimit => CEIL_LIMIT

/-- A constant expression (30_encoding.md R68). -/
inductive AsmExpr where
  /-- a decimal or hexadecimal integer, the raw value of the word -/
  | lit (v : Int)
  /-- `fx(num / 2^k)`: the word of an integer or a dyadic fraction -/
  | fx (num : Int) (k : Nat)
  | const (c : AsmConst)
  | add (x y : AsmExpr)
  | sub (x y : AsmExpr)
  | mul (x y : AsmExpr)
  | pow (x y : AsmExpr)
  deriving DecidableEq, Repr

/-- The exact value of a constant expression; none where there is no integer raw value (a fraction finer
than `2^-128`, a negative exponent). -/
def AsmExpr.eval : AsmExpr → Option Int
  | .lit v => some v
  | .fx num k => if num * 2 ^ 128 % 2 ^ k = 0 then some (num * 2 ^ 128 / 2 ^ k) else none
  | .const c => some c.value
  | .add x y => do return (← x.eval) + (← y.eval)
  | .sub x y => do return (← x.eval) - (← y.eval)
  | .mul x y => do return (← x.eval) * (← y.eval)
  | .pow x y => do
    let e ← y.eval
    if e < 0 then none else return (← x.eval) ^ e.toNat

/-- A value as an operand word: only in `[MIN_RAW, 2^256 - 1]` (30_encoding.md R68). -/
def asmWord (v : Int) : Option Word :=
  if MIN_RAW ≤ v ∧ v ≤ 2 ^ 256 - 1 then some (bits256 v) else none

/-- An operand of a line: a constant expression, or `res`, the RESULT word of the previous command. -/
inductive AsmOperand where
  | expr (e : AsmExpr)
  | res
  deriving DecidableEq, Repr

/-- The word the host drives for an operand; `res` is a copy the host makes (70_reset_and_hazards.md R226). -/
def AsmOperand.word (res : Word) : AsmOperand → Option Word
  | .expr e => do asmWord (← e.eval)
  | .res => some res

/-- A line `MNEMONIC[.RU][.IDO] [A[, B]]` (30_encoding.md R68). -/
structure AsmLine where
  name : String
  ru : Bool
  ido : Bool
  operands : List AsmOperand
  deriving DecidableEq, Repr

/-- Each operation with its mnemonic and its name in the source (30_encoding.md R63). -/
def asmNames : List (Instr × String × String) :=
  [(.fromInt, "FROMINT", "fromInt"), (.toInt, "TOINT", "toInt"), (.fromUInt, "FROMUINT", "fromUInt"),
   (.toUInt, "TOUINT", "toUInt"), (.add, "ADD", "add"), (.sub, "SUB", "sub"), (.neg, "NEG", "neg"),
   (.abs, "ABS", "abs"), (.ceil, "CEIL", "ceil"), (.mulMag .zero, "MULMAG", "mulMagnitudes"),
   (.mul .zero, "MUL", "mul"), (.mulInt, "MULINT", "mulInt"), (.square, "SQUARE", "square")] ++
  [(.divMag .zero, "DIVMAG", "divMagnitudes"), (.div .zero, "DIV", "div"), (.divInt .zero, "DIVINT", "divInt"),
   (.sqrt, "SQRT", "sqrt"), (.sqrtU, "SQRTU", "sqrtUnsigned"), (.clz, "CLZ", "countLeadingZeros"),
   (.ctz, "CTZ", "countTrailingZeros"), (.fixed1, "FIXED1", "fixed1")]

/-- The pseudo-instructions of 30_encoding.md R69. -/
def asmPseudo : List (Instr × String) :=
  [(.clz, "leadingZeros"), (.ctz, "trailingZeros"), (.fixed1, "fixed1"), (.fixed1, "ONE")]

/-- A name without its case. -/
def foldCase (name : String) : List Char := name.toList.map Char.toLower

/-- The operation a name stands for: a mnemonic, a source name in any case, or a pseudo-instruction
(30_encoding.md R69). -/
def asmOperation (name : String) : Option Instr :=
  match asmNames.find? (fun row => name.toList == row.2.1.toList || foldCase name == foldCase row.2.2) with
  | some row => some row.1
  | none => (asmPseudo.find? (fun row => name.toList == row.2.toList)).map Prod.fst

/-- How many operands an operation uses (30_encoding.md R63, columns A and B). -/
def operandCount : Instr → Nat
  | .fromInt => 1
  | .toInt => 1
  | .fromUInt => 1
  | .toUInt => 1
  | .add => 2
  | .sub => 2
  | .neg => 1
  | .abs => 1
  | .ceil => 1
  | .mulMag _ => 2
  | .mul _ => 2
  | .mulInt => 2
  | .square => 1
  | .divMag _ => 2
  | .div _ => 2
  | .divInt _ => 2
  | .sqrt => 1
  | .sqrtU => 1
  | .clz => 1
  | .ctz => 1
  | .fixed1 => 0

/-- The operand words of a line; an operand the operation does not use is omitted and its port driven
with 0 (30_encoding.md R68). -/
def asmOperands (res : Word) : List AsmOperand → Option (Word × Word)
  | [] => some (0, 0)
  | [x] => do return (← x.word res, 0)
  | [x, y] => do return (← x.word res, ← y.word res)
  | _ => none

/-- The command word and operand words of a line; `res` is the previous RESULT (30_encoding.md R68, R69).
None for an unknown name, a wrong number of operands, or an operand with no word. -/
def assemble (res : Word) (l : AsmLine) : Option (Cmd × Word × Word) := do
  let i ← asmOperation l.name
  if l.operands.length = operandCount i then
    let w ← asmOperands res l.operands
    return (packWord i.opNumber ⟨l.ru, l.ido⟩, w)
  else none

/-! ### From text to the tree (30_encoding.md R68)

Spaces between symbols are skipped; `^` binds tighter than a sign, a sign tighter than `*`, and `*` tighter than
`+` and `-`. DESIGN CHOICE (log entry 10): the rule gives no lexical rules and no precedence. -/

/-- A symbol of a line. -/
inductive AsmToken where
  /-- a decimal or `0x` hexadecimal integer -/
  | number (n : Nat)
  /-- a decimal fraction, `n / 10^digits` -/
  | fraction (n digits : Nat)
  | name (cs : List Char)
  | sign (c : Char)
  deriving DecidableEq, Repr

/-- The value of a digit in any base up to 16. -/
def digitValue (c : Char) : Option Nat :=
  if '0' ≤ c ∧ c ≤ '9' then some (c.toNat - '0'.toNat)
  else if 'a' ≤ c ∧ c ≤ 'f' then some (c.toNat - 'a'.toNat + 10)
  else if 'A' ≤ c ∧ c ≤ 'F' then some (c.toNat - 'A'.toNat + 10)
  else none

/-- A decimal digit. -/
def isDigit (c : Char) : Bool := decide ('0' ≤ c ∧ c ≤ '9')

/-- A character of a mnemonic, a suffix or a constant's name. -/
def isNameChar (c : Char) : Bool :=
  decide (('a' ≤ c ∧ c ≤ 'z') ∨ ('A' ≤ c ∧ c ≤ 'Z') ∨ c = '_') || isDigit c

/-- The number a row of digits stands for. -/
def readDigits (base : Nat) (cs : List Char) : Nat :=
  cs.foldl (fun n c => n * base + (digitValue c).getD 0) 0

/-- The symbols of a line; the first argument bounds how many are read. None where a character belongs to no
symbol, or a `0x` has no digits. -/
def tokens : Nat → List Char → Option (List AsmToken)
  | _, [] => some []
  | 0, _ :: _ => none
  | n + 1, c :: cs =>
    if c = ' ' then tokens n cs
    else if c = '0' ∧ cs.head? = some 'x' then
      match cs.tail.takeWhile (fun d => (digitValue d).isSome) with
      | [] => none
      | ds => do
        return .number (readDigits 16 ds) :: (← tokens n (cs.tail.dropWhile (fun d => (digitValue d).isSome)))
    else if isDigit c then
      let whole := (c :: cs).takeWhile isDigit
      let rest := (c :: cs).dropWhile isDigit
      let frac := rest.tail.takeWhile isDigit
      if rest.head? = some '.' ∧ frac ≠ [] then do
        return .fraction (readDigits 10 (whole ++ frac)) frac.length :: (← tokens n (rest.tail.dropWhile isDigit))
      else do return .number (readDigits 10 whole) :: (← tokens n rest)
    else if isNameChar c then do
      return .name ((c :: cs).takeWhile isNameChar) :: (← tokens n ((c :: cs).dropWhile isNameChar))
    else if c ∈ ['+', '-', '*', '^', '(', ')', ',', '.'] then do return .sign c :: (← tokens n cs)
    else none

/-- A named constant of 30_encoding.md R68. -/
def asmConst (cs : List Char) : Option AsmConst :=
  if cs = "MIN_RAW".toList then some .minRaw
  else if cs = "MAX_RAW".toList then some .maxRaw
  else if cs = "INT_MIN".toList then some .intMin
  else if cs = "INT_MAX".toList then some .intMax
  else if cs = "FIXED_ONE".toList then some .fixedOne
  else if cs = "CEIL_LIMIT".toList then some .ceilLimit
  else none

/-- The argument of `fx` up to its closing bracket, without its sign: an integer, a power of integers, or a
decimal fraction, which has to be dyadic. -/
def fxArgument (negative : Bool) : List AsmToken → Option (AsmExpr × List AsmToken)
  | .number n :: .sign ')' :: ts => some (.fx (if negative then -n else n) 0, ts)
  | .number n :: .sign '^' :: .number m :: .sign ')' :: ts =>
    some (.fx (if negative then -(n : Int) ^ m else (n : Int) ^ m) 0, ts)
  | .fraction n d :: .sign ')' :: ts =>
    if n % 5 ^ d = 0 then some (.fx (if negative then -(n / 5 ^ d : Nat) else (n / 5 ^ d : Nat)) d, ts) else none
  | _ => none

/-- A literal, a named constant or an `fx(v)`. -/
def asmAtom : List AsmToken → Option (AsmExpr × List AsmToken)
  | .number n :: ts => some (.lit n, ts)
  | .name cs :: ts =>
    match asmConst cs with
    | some k => some (.const k, ts)
    | none =>
      if cs = "fx".toList then
        match ts with
        | .sign '(' :: .sign '-' :: ts' => fxArgument true ts'
        | .sign '(' :: ts' => fxArgument false ts'
        | _ => none
      else none
  | _ => none

/-- A signed power: `-` before it, `^` after it. -/
def asmPower : Nat → List AsmToken → Option (AsmExpr × List AsmToken)
  | 0, _ => none
  | n + 1, .sign '-' :: ts => do
    let (x, ts) ← asmPower n ts
    return (.sub (.lit 0) x, ts)
  | n + 1, ts => do
    let (x, ts) ← asmAtom ts
    match ts with
    | .sign '^' :: ts => do
      let (y, ts) ← asmPower n ts
      return (.pow x y, ts)
    | _ => return (x, ts)

/-- The factors after the first. -/
def asmFactors : Nat → AsmExpr → List AsmToken → Option (AsmExpr × List AsmToken)
  | n + 1, x, .sign '*' :: ts => do
    let (y, ts) ← asmPower n ts
    asmFactors n (.mul x y) ts
  | _, x, ts => some (x, ts)

/-- A product. -/
def asmTerm (n : Nat) (ts : List AsmToken) : Option (AsmExpr × List AsmToken) := do
  let (x, ts) ← asmPower n ts
  asmFactors n x ts

/-- The terms after the first. -/
def asmTerms : Nat → AsmExpr → List AsmToken → Option (AsmExpr × List AsmToken)
  | n + 1, x, .sign '+' :: ts => do
    let (y, ts) ← asmTerm n ts
    asmTerms n (.add x y) ts
  | n + 1, x, .sign '-' :: ts => do
    let (y, ts) ← asmTerm n ts
    asmTerms n (.sub x y) ts
  | _, x, ts => some (x, ts)

/-- One operand: `res` or a constant expression. -/
def asmOperandText (n : Nat) (ts : List AsmToken) : Option (AsmOperand × List AsmToken) :=
  if ts.head? = some (.name "res".toList) then some (.res, ts.tail)
  else do
    let (x, ts) ← asmTerm n ts
    let (e, ts) ← asmTerms n x ts
    return (.expr e, ts)

/-- The operands `[A[, B]]`. -/
def asmOperandsText (n : Nat) (ts : List AsmToken) : Option (List AsmOperand) :=
  match ts with
  | [] => some []
  | ts => do
    let (x, ts) ← asmOperandText n ts
    match ts with
    | [] => return [x]
    | .sign ',' :: ts => do
      let (y, ts) ← asmOperandText n ts
      if ts = [] then return [x, y] else none
    | _ => none

/-- The suffixes `[.RU][.IDO]`, in that order. -/
def asmSuffixes (ts : List AsmToken) : Bool × Bool × List AsmToken :=
  let ru := decide (ts.take 2 = [.sign '.', .name "RU".toList])
  let ts := if ru then ts.drop 2 else ts
  let ido := decide (ts.take 2 = [.sign '.', .name "IDO".toList])
  (ru, ido, if ido then ts.drop 2 else ts)

/-- The tree of a line. -/
def parseLine (text : String) : Option AsmLine := do
  let cs := text.toList
  match ← tokens cs.length cs with
  | .name name :: ts =>
    let (ru, ido, ts) := asmSuffixes ts
    return ⟨String.ofList name, ru, ido, ← asmOperandsText (cs.length + 1) ts⟩
  | _ => none

/-- The command word and operand words of a line of text. -/
def assembleText (res : Word) (text : String) : Option (Cmd × Word × Word) := do
  assemble res (← parseLine text)

/-- The ports of a host that presents an assembled line. -/
def present (w : Cmd × Word × Word) : Pins := ⟨false, true, w.1, w.2.1, w.2.2⟩

end Sys2Proof.Machine
end

