-- ==== Sys2Proof/Machine/Execute.lean ====
section
/-! DEFINITION. `Execute` of spec/60_exceptions.md R203 as a function of the command word and the two operand
words alone: the vocabulary of the claims. The step does not call it: a step runs the meanings of Dispatch. -/

namespace Sys2Proof.Machine

/-- The answer of an operation on the operand words, each read as 30_encoding.md R63 says. -/
def answer (i : Instr) (a b : Word) : Answer :=
  match i with
  | .fromInt => fromIntOp (s256 a)
  | .toInt => toIntOp (s256 a)
  | .fromUInt => fromUIntOp (u256 a)
  | .toUInt => toUIntOp (s256 a)
  | .add => addOp (s256 a) (s256 b)
  | .sub => subOp (s256 a) (s256 b)
  | .neg => negOp (s256 a)
  | .abs => absOp (s256 a)
  | .ceil => ceilOp (s256 a)
  | .mulMag f => (mulMagOp (u256 a) (u256 b) f).map Int.ofNat
  | .mul f => mulOp (s256 a) (s256 b) f
  | .mulInt => mulIntOp (s256 a) (s256 b)
  | .square => squareOp (s256 a)
  | .divMag f => (divMagOp (u256 a) (u256 b) f).map Int.ofNat
  | .div f => divOp (s256 a) (s256 b) f
  | .divInt f => divIntOp (s256 a) (s256 b) f
  | .sqrt => sqrtOp (s256 a)
  | .sqrtU => sqrtUOp (u256 a)
  | .clz => clzOp (u256 a)
  | .ctz => ctzOp (u256 a)
  | .fixed1 => fixed1Op

/-- RESULT and STATUS of an answer (60_exceptions.md R203, R204). -/
def outcomeOf : Answer → Word × StatusCode
  | .ok v => (bits256 v, statusOk)
  | .error k => (0, k.code)

/-- `Execute(c, A, B)` (60_exceptions.md R203). -/
def execute (c : Cmd) (a b : Word) : Word × StatusCode :=
  match decode c with
  | .error _ => (0, ErrKind.illegalCommand.code)
  | .ok i => outcomeOf (answer i a b)

end Sys2Proof.Machine
end

