-- ==== Sys2Proof/Safety.lean ====
section
/-! DEFINITION. The terms claims are stated in: how a command completes, the invariant of the clocked machine,
the transaction-level machine of spec/10_state.md R30, and what the host can tell two states apart by. -/

namespace Sys2Proof.Safety

open Sys2Proof.Machine

/-- The command `i`, run on state `s`, completes with the given RESULT and STATUS (10_state.md R26): it
answers the next state in which these two, `BUSY = 0` and `RVALID = 1` are written and EVERY other field is
as it was in `s`. -/
def Completes (i : Instr) (s : State) (o : Word × StatusCode) : Prop :=
  exec i s = .next { s with result := o.1, status := o.2, busy := false, rvalid := true }

/-- The invariant of the clocked machine: what 10_state.md R24 to R27 say about its registers in every
state between two edges. -/
structure Inv (s : State) : Prop where
  /-- A command in flight has no outcome yet (R25) and at least one edge to go (R26). -/
  inFlight : s.busy = true → s.rvalid = false ∧ 1 ≤ s.remaining
  /-- With `RVALID = 1`, RESULT and STATUS hold the outcome of the command last completed (R27), which the
  latches still hold (R24, log entry 9). -/
  outcomeHeld : s.rvalid = true → (s.result, s.status) = execute s.cmdL s.aL s.bL
  /-- Idle with no outcome only as reset leaves it (R24). -/
  idleAfterReset : s.busy = false → s.rvalid = false → s.result = 0 ∧ s.status = 0

/-! ### The transaction-level machine (10_state.md R30) -/

/-- Its state. -/
structure Txn where
  busy : Bool
  rvalid : Bool
  result : Word
  status : StatusCode
  cmdL : Cmd
  aL : Word
  bL : Word
  deriving DecidableEq, Repr

/-- The transaction-level reading of a state of the clocked machine. -/
def txn (s : State) : Txn := ⟨s.busy, s.rvalid, s.result, s.status, s.cmdL, s.aL, s.bL⟩

/-- `Accept(c, x, y)`. -/
def Txn.Accept (c : Cmd) (x y : Word) (t t' : Txn) : Prop :=
  t.busy = false ∧ t' = { t with cmdL := c, aL := x, bL := y, busy := true, rvalid := false }

/-- `Complete`. -/
def Txn.Complete (t t' : Txn) : Prop :=
  t.busy = true ∧
    t' = { t with
      result := (execute t.cmdL t.aL t.bL).1
      status := (execute t.cmdL t.aL t.bL).2
      busy := false
      rvalid := true }

/-- `Reset`: the latches hold no value after it, so nothing is said of them. -/
def Txn.Reset (t' : Txn) : Prop :=
  t'.busy = false ∧ t'.rvalid = false ∧ t'.result = 0 ∧ t'.status = 0

/-- One step of the transaction-level machine. -/
def Txn.Step (t t' : Txn) : Prop :=
  (∃ c x y, t.Accept c x y t') ∨ t.Complete t' ∨ t'.Reset

/-! ### What the host can tell -/

/-- No port shows a difference between the two states, now or while the command in flight (the same in
both) works: 10_state.md R29. -/
structure SameToHost (s t : State) : Prop where
  outputs : s.outputs = t.outputs
  resetDone : s.resetDone = t.resetDone
  pins : s.pins = t.pins
  inFlight : s.busy = true → s.cmdL = t.cmdL ∧ s.aL = t.aL ∧ s.bL = t.bL ∧ s.remaining = t.remaining

/-- The `PrecisionLossError` of the operations that take flags, which `IGNORE_DECIMAL_OVERFLOW` suppresses
(30_encoding.md R61). -/
def lossUnlessIgnored (f : RoundingFlags) : List ErrKind := if f.ido then [] else [.precisionLossError]

/-- The error kinds each operation can raise (60_exceptions.md R200), less the `PrecisionError` of `SQRT`,
which the rule's table calls unreachable (90_conflicts.md C10). -/
def mayRaise : Instr → List ErrKind
  | .fromInt => [.rangeError]
  | .toInt => []
  | .fromUInt => [.rangeError]
  | .toUInt => [.rangeError]
  | .add => [.overflowError]
  | .sub => [.overflowError]
  | .neg => [.overflowError]
  | .abs => [.overflowError]
  | .ceil => [.overflowError]
  | .mulMag f => .overflowError :: lossUnlessIgnored f
  | .mul f => .overflowError :: lossUnlessIgnored f
  | .mulInt => [.overflowError]
  | .square => [.overflowError, .precisionLossError]
  | .divMag f => [.overflowError, .divisionByZeroError, .precisionError] ++ lossUnlessIgnored f
  | .div f => [.overflowError, .divisionByZeroError, .precisionError] ++ lossUnlessIgnored f
  | .divInt f => [.overflowError, .divisionByZeroError] ++ lossUnlessIgnored f
  | .sqrt => [.domainError]
  | .sqrtU => []
  | .clz => []
  | .ctz => []
  | .fixed1 => []

/-- The result is an UnsignedFixed128x128 or an unsigned integer, not a signed word (30_encoding.md R63,
column result). -/
def unsignedResult : Instr → Bool
  | .fromInt => false
  | .toInt => false
  | .fromUInt => false
  | .toUInt => true
  | .add => false
  | .sub => false
  | .neg => false
  | .abs => false
  | .ceil => false
  | .mulMag _ => true
  | .mul _ => false
  | .mulInt => false
  | .square => false
  | .divMag _ => true
  | .div _ => false
  | .divInt _ => false
  | .sqrt => false
  | .sqrtU => true
  | .clz => true
  | .ctz => true
  | .fixed1 => false

/-- The command word `OP | 0x20 (RU) | 0x40 (IDO)` (30_encoding.md R63). -/
def flagWord (op : Nat) (f : RoundingFlags) : Cmd :=
  BitVec.ofNat 8 (op ||| (if f.ru then 0x20 else 0) ||| (if f.ido then 0x40 else 0))

/-- The machine after `n` rising edges, stopping at the first fault or refusal. -/
def runEdges : Nat → State → Host.Outcome State Fault Refusal
  | 0, s => .next s
  | n + 1, s =>
    match step s with
    | .next t => runEdges n t
    | .fault r => .fault r
    | .refused r => .refused r

/-- The host's reading of two runs: both go on, and it sees the same ports; or both stop alike. -/
def RunsAlike : Host.Outcome State Fault Refusal → Host.Outcome State Fault Refusal → Prop
  | .next s, .next t => s.outputs = t.outputs
  | .fault r, .fault r' => r = r'
  | .refused r, .refused r' => r = r'
  | _, _ => False

end Sys2Proof.Safety
end

