-- ==== Sys2Proof/Certificates/Slice0/Obligations.lean ====
section
/-! DEFINITION. The statements made of the model, each from the rule of spec/ its docstring names. They state
and never prove. In all of them `Completes i s o` says that `exec i s` answers exactly `s` with RESULT and
STATUS set to `o`, `BUSY = 0` and `RVALID = 1`, so each is a result, a completion and a frame at once. -/

open Sys2Proof Sys2Proof.Machine Sys2Proof.Safety

/-! ### Encoding (spec/30_encoding.md) -/

/-- 30_encoding.md section 2, the full command words: the words of the map decode to their operations, with
the flags of bits 5 and 6 where the operation takes them; the reserved numbers decode to nothing. -/
def Obligations.CommandWordsDecodeAsTabled : Prop :=
  (decode 0x01 = .ok .fromInt ∧ decode 0x02 = .ok .toInt ∧ decode 0x03 = .ok .fromUInt ∧
    decode 0x04 = .ok .toUInt ∧ decode 0x05 = .ok .add ∧ decode 0x06 = .ok .sub ∧ decode 0x07 = .ok .neg ∧
    decode 0x08 = .ok .abs ∧ decode 0x09 = .ok .ceil ∧ decode 0x0C = .ok .mulInt ∧
    decode 0x0D = .ok .square ∧ decode 0x11 = .ok .sqrt ∧ decode 0x12 = .ok .sqrtU ∧
    decode 0x13 = .ok .clz ∧ decode 0x14 = .ok .ctz ∧ decode 0x15 = .ok .fixed1) ∧
  (∀ f, decode (flagWord 0x0A f) = .ok (.mulMag f) ∧ decode (flagWord 0x0B f) = .ok (.mul f) ∧
    decode (flagWord 0x0E f) = .ok (.divMag f) ∧ decode (flagWord 0x0F f) = .ok (.div f) ∧
    decode (flagWord 0x10 f) = .ok (.divInt f)) ∧
  decode 0x00 = .error .reservedOp ∧ decode 0x16 = .error .reservedOp ∧ decode 0x1F = .error .reservedOp

/-- 30_encoding.md R66: a word is illegal iff one of the three conditions holds, an illegal word gives
IllegalCommand whatever the operands, and 36 of the 256 words are legal. -/
def Obligations.WordIllegalExactlyAsRuled : Prop :=
  (∀ c : Cmd, (∀ i, decode c ≠ .ok i) ↔
    (c.getLsbD 7 = true ∨ (c.toNat % 32 = 0 ∨ 0x16 ≤ c.toNat % 32) ∨
      (c.toNat % 32 ∉ [0x0A, 0x0B, 0x0E, 0x0F, 0x10] ∧ (c.toNat / 32) % 4 ≠ 0))) ∧
  (∀ (c : Cmd) (a b : Word), (∀ i, decode c ≠ .ok i) → execute c a b = (0, 7)) ∧
  ((List.range 256).filter (fun n => (decode (BitVec.ofNat 8 n)).isOk)).length = 36

/-- 30_encoding.md R67: the decoder's total function, field by field: the operation is the one whose number
is in bits 4 to 0, its flags are bits 5 and 6. -/
def Obligations.DecodeReadsTheFields : Prop :=
  ∀ c : Cmd,
    if c.getLsbD 7 then ∃ r, decode c = .error r
    else if c.toNat % 32 = 0 ∨ 0x16 ≤ c.toNat % 32 then ∃ r, decode c = .error r
    else if c.toNat % 32 ∉ [0x0A, 0x0B, 0x0E, 0x0F, 0x10] ∧ (c.getLsbD 5 || c.getLsbD 6) = true then
      ∃ r, decode c = .error r
    else ∃ i, decode c = .ok i ∧ i.opNumber = c.toNat % 32 ∧ i.flags = ⟨c.getLsbD 5, c.getLsbD 6⟩

/-- 30_encoding.md R62, R66: every instruction's word decodes to it, and every legal word is the encoding of
what it decodes to. -/
def Obligations.DecodeEncodeRoundTrip : Prop :=
  (∀ i : Instr, decode (encode i) = .ok i) ∧ (∀ (c : Cmd) (i : Instr), decode c = .ok i → encode i = c)

/-- 30_encoding.md R65: an operand the operation does not use may hold any value. -/
def Obligations.UnusedOperandsAreIgnored : Prop :=
  ∀ (i : Instr) (s : State) (x y : Word) (o : Word × StatusCode), Completes i s o →
    (operandCount i = 1 → Completes i { s with bL := y } o) ∧
    (operandCount i = 0 → Completes i { s with aL := x, bL := y } o)

/-- 30_encoding.md R68, R69, with the names of R63 and R69 written out: a mnemonic and a source name, the latter
in any case, name their operation, and so do the pseudo-instructions; a line gives the word `OP | RU | IDO` and
the operand words, `res` being the previous RESULT and 0 standing on an unused port; two lines of text. Two points
are the model's choice, DESIGN CHOICE of log entry 10, on which both rules are silent: the last clause, that
suffixes on an operation without flags are accepted and set their bits, which makes the word illegal; and, in the
lines of text, that spaces are skipped. -/
def Obligations.AssemblyLinesGiveTheirWords : Prop :=
  (∀ row ∈ ([(.fromInt, "FROMINT", "fromInt"), (.toInt, "TOINT", "toInt"), (.fromUInt, "FROMUINT", "fromUInt"),
        (.toUInt, "TOUINT", "toUInt"), (.add, "ADD", "add"), (.sub, "SUB", "sub"), (.neg, "NEG", "neg"),
        (.abs, "ABS", "abs"), (.ceil, "CEIL", "ceil"), (.mulMag .zero, "MULMAG", "mulMagnitudes"),
        (.mul .zero, "MUL", "mul"), (.mulInt, "MULINT", "mulInt")] ++
      [(.square, "SQUARE", "square"), (.divMag .zero, "DIVMAG", "divMagnitudes"), (.div .zero, "DIV", "div"),
        (.divInt .zero, "DIVINT", "divInt"), (.sqrt, "SQRT", "sqrt"), (.sqrtU, "SQRTU", "sqrtUnsigned"),
        (.clz, "CLZ", "countLeadingZeros"), (.ctz, "CTZ", "countTrailingZeros"),
        (.fixed1, "FIXED1", "fixed1")] : List (Instr × String × String)),
    asmOperation row.2.1 = some row.1 ∧
      ∀ name : String, foldCase name = foldCase row.2.2 → asmOperation name = some row.1) ∧
  (asmOperation "leadingZeros" = some .clz ∧ asmOperation "trailingZeros" = some .ctz ∧
    asmOperation "fixed1" = some .fixed1 ∧ asmOperation "ONE" = some .fixed1) ∧
  (∀ (res x : Word) (ru ido : Bool),
    assemble res ⟨"MUL", ru, ido, [.expr (.lit x.toNat), .res]⟩ = some (flagWord 0x0B ⟨ru, ido⟩, x, res)) ∧
  (∀ res x : Word,
    assemble res ⟨"countLeadingZeros", false, false, [.expr (.lit x.toInt)]⟩ = some (0x13, x, 0)) ∧
  assembleText 9 "MUL.RU -3, fx(0.5)" = some (0x2B, BitVec.ofInt 256 (-3), BitVec.ofNat 256 (2 ^ 127)) ∧
  assembleText 9 "DIVMAG.RU.IDO res, 2^256-1" = some (0x6E, 9, BitVec.allOnes 256) ∧
  (∀ (res x : Word) (ru ido : Bool),
    assemble res ⟨"countLeadingZeros", ru, ido, [.expr (.lit x.toInt)]⟩
        = some (flagWord 0x13 ⟨ru, ido⟩, x, 0) ∧
      ((ru || ido) = true → ∀ i, decode (flagWord 0x13 ⟨ru, ido⟩) ≠ .ok i))

/-! ### The clocked machine (spec/10_state.md, spec/60_exceptions.md, spec/70_reset_and_hazards.md) -/

/-- 60_exceptions.md R203: at the completion edge the step is `exec` of the instruction the latched word
decodes to; around it the step only goes on to the host's next port entry. -/
def Obligations.StepRunsDecodedCommand : Prop :=
  ∀ (s : State) (i : Instr), s.sampled.rst = false → s.resetDone = true → s.busy = true →
    s.remaining ≤ 1 → decode s.cmdL = .ok i → step s = exec i { s with pins := s.pins.tail }

/-- Log entry 6: a word put in flight by `withFetchWord` is run by the very next step. -/
def Obligations.PlacedWordRunsAtTheNextStep : Prop :=
  ∀ (s : State) (nbits w : Nat) (i : Instr), decodeTableWord nbits w = some i →
    step (s.withFetchWord nbits w) =
      exec i { s with
        cmdL := BitVec.ofNat 8 (w % 2 ^ nbits)
        busy := true
        rvalid := false
        remaining := 1
        resetDone := true
        pins := s.pins.tail }

/-- 70_reset_and_hazards.md R221: what reset leaves. The state the spec gives no value (the latches, the working
state) never shows: whatever it holds, every host sees the same ports at every edge. -/
def Obligations.ResetValues : Prop :=
  (State.reset.busy = false ∧ State.reset.rvalid = false ∧ State.reset.result = 0 ∧ State.reset.status = 0 ∧
    State.reset.outcome = none) ∧
  ∀ (ps : List Pins) (c : Cmd) (a b : Word) (w n : Nat),
    RunsAlike (runEdges n { State.reset with pins := ps })
      (runEdges n { State.reset with pins := ps, cmdL := c, aL := a, bL := b, remaining := w })

/-- 70_reset_and_hazards.md R220: an edge with `rst = 1` resets the core from every state and whatever the
other ports hold; the command in flight is gone, no latched word is left that could matter, and the first
edge with `rst = 0` may accept. -/
def Obligations.ResetWinsOverEverything : Prop :=
  ∀ s : State, s.sampled.rst = true → ∃ t, step s = .next t ∧
    t.busy = false ∧ t.rvalid = false ∧ t.result = 0 ∧ t.status = 0 ∧ t.outcome = none ∧
    t.pins = s.pins.tail ∧
    (∀ (c : Cmd) (a b : Word) (w n : Nat),
      RunsAlike (runEdges n t) (runEdges n { t with cmdL := c, aL := a, bL := b, remaining := w })) ∧
    (t.sampled.rst = false → t.sampled.start = true → ∃ u, step t = .next u ∧ u.busy = true ∧
      u.cmdL = t.sampled.cmd ∧ u.aL = t.sampled.a ∧ u.bL = t.sampled.b)

/-- 70_reset_and_hazards.md R222 with the treatment `stuck` of 93_implementation_defined.md section 3: before
the first reset an edge without `rst` stops the model (its choice, log entry 5); an edge with `rst` starts
it. -/
def Obligations.NothingRunsBeforeTheFirstReset : Prop :=
  ∀ s : State, s.resetDone = false →
    (s.sampled.rst = false → step s = .fault .stateUnspecified) ∧
    (s.sampled.rst = true → ∃ t, step s = .next t ∧ t.resetDone = true ∧
      t.outputs = ⟨false, false, 0, 0⟩ ∧ t.pins = s.pins.tail)

/-- 10_state.md R25: acceptance latches the command and both operands and keeps RESULT and STATUS; with
`start = 0` nothing changes; while `BUSY = 1` whatever is on the ports (no reset) makes no difference. -/
def Obligations.AcceptanceLatchesTheCommand : Prop :=
  ∀ (s : State) (p : Pins) (rest : List Pins), s.pins = p :: rest → s.resetDone = true → p.rst = false →
    (s.busy = false → p.start = true →
      ∃ n, step s = .next { s with
        cmdL := p.cmd
        aL := p.a
        bL := p.b
        busy := true
        rvalid := false
        remaining := n
        pins := rest }) ∧
    (s.busy = false → p.start = false → step s = .next { s with pins := rest }) ∧
    (s.busy = true → ∀ q : Pins, q.rst = false → step { s with pins := q :: rest } = step s)

/-- 70_reset_and_hazards.md R224: a `start` at an edge where `BUSY = 1` before the edge, the completion edge
included, is dropped without trace: the edge is the one it would be with any other ports, the latches keep the
command in flight, and `BUSY` ends at the completion edge. -/
def Obligations.StartWhileBusyIsDropped : Prop :=
  ∀ (s : State) (p : Pins) (rest : List Pins), s.pins = p :: rest → s.resetDone = true → p.rst = false →
    s.busy = true → ∃ t, step s = .next t ∧ step { s with pins := .idle :: rest } = .next t ∧
      t.cmdL = s.cmdL ∧ t.aL = s.aL ∧ t.bL = s.bL ∧ t.pins = rest ∧ (t.busy = false ↔ s.remaining ≤ 1)

/-- 10_state.md R26: a command accepted at one edge completes `LATENCY >= 1` edges later with `Execute` of the
words latched then, whatever the host drives in between (short of reset); at every edge before that the ports
show `BUSY = 1`, `RVALID = 0` and the stale RESULT and STATUS, no intermediate value. -/
def Obligations.AcceptedCommandCompletesAfterItsLatency : Prop :=
  ∀ (s : State) (p : Pins) (waits rest : List Pins), s.resetDone = true → s.busy = false →
    s.pins = p :: (waits ++ rest) → p.rst = false → p.start = true → (∀ q ∈ waits, q.rst = false) →
    waits.length = latency p.cmd p.a p.b →
    1 ≤ latency p.cmd p.a p.b ∧
    (∀ k, k < latency p.cmd p.a p.b →
      ∃ t, runEdges (1 + k) s = .next t ∧ t.outputs = ⟨true, false, s.result, s.status⟩) ∧
    runEdges (1 + latency p.cmd p.a p.b) s = .next { s with
      cmdL := p.cmd
      aL := p.a
      bL := p.b
      result := (execute p.cmd p.a p.b).1
      status := (execute p.cmd p.a p.b).2
      busy := false
      rvalid := true
      remaining := 1
      pins := rest }

/-- 10_state.md R26, R30: with no reset a command in flight completes after exactly the edges it has left,
whatever the host does, and is in flight until then. The edges left are the model's countdown `remaining` (log
entry 2); a busy state whose countdown stands at 0, which `Inv.inFlight` rules out, completes at the next edge. -/
def Obligations.CommandInFlightTerminates : Prop :=
  ∀ s : State, s.resetDone = true → s.busy = true → (∀ q ∈ s.pins, q.rst = false) →
    (1 ≤ s.remaining → ∃ t, runEdges s.remaining s = .next t ∧ t.busy = false ∧ t.rvalid = true ∧
      (t.result, t.status) = execute s.cmdL s.aL s.bL) ∧
    (s.remaining = 0 → ∃ t, runEdges 1 s = .next t ∧ t.busy = false ∧ t.rvalid = true ∧
      (t.result, t.status) = execute s.cmdL s.aL s.bL) ∧
    (∀ k, k < s.remaining → ∃ t, runEdges k s = .next t ∧ t.busy = true ∧ t.rvalid = s.rvalid)

/-- 60_exceptions.md R202: an illegal word is accepted like any other, and completes with STATUS 7 and
RESULT 0, after which the core is idle. -/
def Obligations.IllegalCommandCompletesWithStatusSeven : Prop :=
  ∀ (s : State) (p : Pins) (waits rest : List Pins), s.resetDone = true → s.busy = false →
    s.pins = p :: (waits ++ rest) → p.rst = false → p.start = true → (∀ q ∈ waits, q.rst = false) →
    waits.length = latency p.cmd p.a p.b → (∀ i, decode p.cmd ≠ .ok i) →
    runEdges (1 + latency p.cmd p.a p.b) s = .next { s with
      cmdL := p.cmd
      aL := p.a
      bL := p.b
      result := 0
      status := 7
      busy := false
      rvalid := true
      remaining := 1
      pins := rest }

/-- 10_state.md R27, 70_reset_and_hazards.md R225: an outcome on the ports is kept while nothing is accepted;
acceptance and reset leave none to read. -/
def Obligations.OutcomeIsHeldUntilAcceptanceOrReset : Prop :=
  ∀ s t : State, s.busy = false → step s = .next t →
    (s.sampled.rst = false → s.sampled.start = false → t.outcome = s.outcome) ∧
    (s.sampled.rst = false → s.sampled.start = true → t.outcome = none) ∧
    (s.sampled.rst = true → t.outcome = none)

/-- The invariant holds right after reset (70_reset_and_hazards.md R221, 10_state.md R24). -/
def Obligations.InvariantHoldsAtReset : Prop := Inv State.reset

/-- 10_state.md R24 to R27: every step keeps the invariant: no outcome while in flight, and whenever
`RVALID = 1` RESULT and STATUS are `Execute` of the command last latched. That the latches still hold that
command is the model's choice (log entry 9). -/
def Obligations.EveryStepKeepsTheInvariant : Prop :=
  ∀ s t : State, Inv s → step s = .next t → Inv t

/-- 10_state.md R30: each rising edge is a transaction-level step (Accept, Complete or Reset) or leaves the
transaction-level state alone. -/
def Obligations.EdgesRefineTransactions : Prop :=
  ∀ s t : State, step s = .next t →
    (txn t = txn s) ∨ (txn s).Step (txn t)

/-- 10_state.md R30, the other direction: from every state after a reset, each transaction-level step is made
by some host in some number of edges, up to the latches that a reset leaves without value. -/
def Obligations.TransactionsAreRealisedByEdges : Prop :=
  ∀ (s : State) (t' : Txn), s.resetDone = true → (txn s).Step t' →
    ∃ (ps : List Pins) (n : Nat) (t : State), runEdges n { s with pins := ps } = .next t ∧
      (txn t = t' ∨ (t'.Reset ∧ (txn t).Reset))

/-- 10_state.md R29, 20_memory.md R46: the hidden state of an idle core never reaches a port: two states that
show the host the same, with the same command in flight if any, look alike after every number of edges. -/
def Obligations.HiddenStateNeverReachesThePorts : Prop :=
  ∀ s t : State, SameToHost s t → ∀ n, RunsAlike (runEdges n s) (runEdges n t)

/-! ### Errors and outcomes (spec/60_exceptions.md, spec/00_scope.md) -/

/-- 60_exceptions.md R201: the STATUS codes; all eight are used and each says its kind. -/
def Obligations.StatusCodesAreAsTabled : Prop :=
  statusOk = 0 ∧ ErrKind.rangeError.code = 1 ∧ ErrKind.overflowError.code = 2 ∧
    ErrKind.divisionByZeroError.code = 3 ∧ ErrKind.precisionError.code = 4 ∧
    ErrKind.precisionLossError.code = 5 ∧ ErrKind.domainError.code = 6 ∧ ErrKind.illegalCommand.code = 7 ∧
    (∀ k, statusKind k.code = some k) ∧ (∀ c : StatusCode, c ≠ 0 → ∃ k : ErrKind, k.code = c)

/-- 60_exceptions.md R203: every command completes, from every state, with `Execute` of its word and the
latched operands, and changes RESULT, STATUS, BUSY and RVALID only. -/
def Obligations.EveryCommandCompletesWithExecute : Prop :=
  ∀ (i : Instr) (s : State), Completes i s (execute (encode i) s.aL s.bL)

/-- 60_exceptions.md R204: RESULT is 0 on every error, the illegal words included. -/
def Obligations.ErrorsLeaveResultZero : Prop :=
  ∀ (c : Cmd) (a b : Word), (execute c a b).2 ≠ 0 → (execute c a b).1 = 0

/-- 60_exceptions.md R200: an operation ends with `OK` or with one of the kinds listed for it; of `SQRT` the
listed `PrecisionError` is never raised (90_conflicts.md C10); `IllegalCommand` is the end of the illegal words
and of no other. -/
def Obligations.OperationsRaiseOnlyTheirKinds : Prop :=
  (∀ (i : Instr) (s : State), ∃ o, Completes i s o ∧ (o.2 = 0 ∨ ∃ k ∈ mayRaise i, o.2 = k.code)) ∧
  ∀ (c : Cmd) (a b : Word), (execute c a b).2 = ErrKind.illegalCommand.code ↔ ∀ i, decode c ≠ .ok i

/-- 00_scope.md R10, R13: the value an operation returns always fits the word it is written to, a signed one
in `[MIN_RAW, MAX_RAW]`, an unsigned one in `[0, 2^256 - 1]`: no result wraps. -/
def Obligations.ReturnedValuesFitTheirWord : Prop :=
  ∀ (i : Instr) (a b : Word) (v : Int), answer i a b = .ok v →
    if unsignedResult i then 0 ≤ v ∧ v ≤ 2 ^ 256 - 1 else -2 ^ 255 ≤ v ∧ v ≤ 2 ^ 255 - 1

/-- 00_scope.md R14: without `ROUND_UP` a product's magnitude is truncated toward zero; with it an inexact one
is the next unit away from zero, except at `MAX_RAW`; the sign is that of the exact product. -/
def Obligations.MulRoundsItsMagnitude : Prop :=
  ∀ (a b r : Word) (f : RoundingFlags), execute (flagWord 0x0B f) a b = (r, 0) →
    0 ≤ r.toInt * (a.toInt * b.toInt) ∧
    (f.ru = false → r.toInt.natAbs * 2 ^ 128 ≤ (a.toInt * b.toInt).natAbs ∧
      (a.toInt * b.toInt).natAbs < (r.toInt.natAbs + 1) * 2 ^ 128) ∧
    (f.ru = true → r.toInt.natAbs < 2 ^ 255 - 1 →
      (a.toInt * b.toInt).natAbs ≤ r.toInt.natAbs * 2 ^ 128 ∧
      r.toInt.natAbs * 2 ^ 128 < (a.toInt * b.toInt).natAbs + 2 ^ 128)

/-! ### Converter (spec/40_conversion.md) -/

/-- 40_conversion.md R100. -/
def Obligations.FromIntShiftsOrRangeError : Prop :=
  decode 0x01 = .ok .fromInt ∧
  ∀ s : State, Completes .fromInt s
    (if s.aL.toInt < -2 ^ 127 ∨ 2 ^ 127 - 1 < s.aL.toInt then (0, 1) else (s.aL <<< 128, 0))

/-- 40_conversion.md R101: the arithmetic shift is the floor, and always in `[INT_MIN, INT_MAX]`. -/
def Obligations.ToIntIsTheFloor : Prop :=
  decode 0x02 = .ok .toInt ∧
  ∀ s : State, Completes .toInt s (s.aL.sshiftRight 128, 0) ∧
    (s.aL.sshiftRight 128).toInt = s.aL.toInt / 2 ^ 128 ∧
    -2 ^ 127 ≤ (s.aL.sshiftRight 128).toInt ∧ (s.aL.sshiftRight 128).toInt ≤ 2 ^ 127 - 1

/-- 40_conversion.md R102. -/
def Obligations.FromUIntShiftsOrRangeError : Prop :=
  decode 0x03 = .ok .fromUInt ∧
  ∀ s : State, Completes .fromUInt s
    (if 2 ^ 127 - 1 < s.aL.toNat then (0, 1) else (s.aL <<< 128, 0))

/-- 40_conversion.md R103. -/
def Obligations.ToUIntShiftsOrRangeError : Prop :=
  decode 0x04 = .ok .toUInt ∧
  ∀ s : State, Completes .toUInt s (if s.aL.msb then (0, 1) else (s.aL >>> 128, 0))

/-- 40_conversion.md R104. -/
def Obligations.FixedOneIsTheConstant : Prop :=
  decode 0x15 = .ok .fixed1 ∧
  ∀ s : State, Completes .fixed1 s (0x0000000000000000000000000000000100000000000000000000000000000000, 0)

/-- 40_conversion.md R105: the round-trip laws of the converter, at the level of `Execute`. -/
def Obligations.ConversionRoundTrips : Prop :=
  (∀ x b b' : Word, -2 ^ 127 ≤ x.toInt → x.toInt ≤ 2 ^ 127 - 1 →
    execute 0x02 (execute 0x01 x b).1 b' = (x, 0)) ∧
  (∀ x b b' : Word, x.extractLsb' 0 128 = 0 → execute 0x01 (execute 0x02 x b).1 b' = (x, 0)) ∧
  (∀ x b b' : Word, (execute 0x01 (execute 0x02 x b).1 b').2 = 0)

/-! ### Adder/subtractor, negator/absolute value, ceiling (spec/41_additive.md) -/

/-- 41_additive.md R120: the wrapped sum is the result unless the source's sign test finds overflow, and that
test is the exact range condition. -/
def Obligations.AddIsExactOrOverflow : Prop :=
  decode 0x05 = .ok .add ∧
  ∀ s : State,
    Completes .add s
      (if (0 ≤ s.bL.toInt ∧ s.aL.toInt ≤ (s.aL + s.bL).toInt) ∨
          (s.bL.toInt < 0 ∧ (s.aL + s.bL).toInt < s.aL.toInt)
        then (s.aL + s.bL, 0) else (0, 2)) ∧
    (((0 ≤ s.bL.toInt ∧ s.aL.toInt ≤ (s.aL + s.bL).toInt) ∨
        (s.bL.toInt < 0 ∧ (s.aL + s.bL).toInt < s.aL.toInt)) ↔
      (-2 ^ 255 ≤ s.aL.toInt + s.bL.toInt ∧ s.aL.toInt + s.bL.toInt ≤ 2 ^ 255 - 1))

/-- 41_additive.md R121, its law included: `SUB` undoes an `ADD` that succeeded. -/
def Obligations.SubIsExactOrOverflow : Prop :=
  decode 0x06 = .ok .sub ∧
  (∀ s : State, Completes .sub s
    (if s.aL.toInt - s.bL.toInt < -2 ^ 255 ∨ 2 ^ 255 - 1 < s.aL.toInt - s.bL.toInt then (0, 2)
      else (s.aL - s.bL, 0))) ∧
  (∀ a b r : Word, execute 0x05 a b = (r, 0) → execute 0x06 r b = (a, 0))

/-- 41_additive.md R122. -/
def Obligations.NegIsTwosComplementOrOverflow : Prop :=
  decode 0x07 = .ok .neg ∧
  ∀ s : State, Completes .neg s (if s.aL = BitVec.intMin 256 then (0, 2) else (-s.aL, 0))

/-- 41_additive.md R123: the absolute value, and that every result is in `[0, MAX_RAW]`. -/
def Obligations.AbsIsNonnegativeOrOverflow : Prop :=
  decode 0x08 = .ok .abs ∧
  ∀ s : State, Completes .abs s
      (if s.aL = BitVec.intMin 256 then (0, 2) else (if s.aL.msb then -s.aL else s.aL, 0)) ∧
    (s.aL ≠ BitVec.intMin 256 → 0 ≤ (if s.aL.msb then -s.aL else s.aL).toInt)

/-- 41_additive.md R124: below the threshold the result is the one multiple of `2^128` from the operand up to,
but not reaching, one unit above it. -/
def Obligations.CeilIsTheNextWholeUnit : Prop :=
  decode 0x09 = .ok .ceil ∧
  ∀ s : State, ∃ r : Word,
    Completes .ceil s (if 2 ^ 254 ≤ s.aL.toInt then (0, 2) else (r, 0)) ∧
    (s.aL.toInt < 2 ^ 254 →
      r.extractLsb' 0 128 = 0 ∧ s.aL.toInt ≤ r.toInt ∧ r.toInt < s.aL.toInt + 2 ^ 128)

/-! ### Multiplier (spec/42_multiply.md) -/

/-- 42_multiply.md R140: the window `P[383:128]` of the exact 512-bit product, in the rule's order of
tests. -/
def Obligations.MulMagIsTheProductWindow : Prop :=
  (∀ f, decode (flagWord 0x0A f) = .ok (.mulMag f)) ∧
  ∀ (s : State) (f : RoundingFlags) (p : BitVec 512),
    p = s.aL.zeroExtend 512 * s.bL.zeroExtend 512 →
    Completes (.mulMag f) s
      (if p.extractLsb' 384 128 ≠ 0 then (0, 2)
        else if f.ido = false ∧ s.aL ≠ 0 ∧ s.bL ≠ 0 ∧ p.extractLsb' 128 256 = 0 then (0, 5)
        else if f.ru = true ∧ p.extractLsb' 0 128 ≠ 0 ∧ (p.extractLsb' 128 256).toNat < 2 ^ 255 - 1 then
          (p.extractLsb' 128 256 + 1, 0)
        else (p.extractLsb' 128 256, 0))

/-- 42_multiply.md R141: zero test, `abs` of both operands, the outcome of `MULMAG` on the magnitudes, the
top-bit test, the sign. -/
def Obligations.MulIsSignedMulMag : Prop :=
  (∀ f, decode (flagWord 0x0B f) = .ok (.mul f)) ∧
  ∀ (s : State) (f : RoundingFlags) (m : Word × StatusCode),
    m = execute (flagWord 0x0A f) (if s.aL.msb then -s.aL else s.aL) (if s.bL.msb then -s.bL else s.bL) →
    Completes (.mul f) s
      (if s.aL = 0 ∨ s.bL = 0 then (0, 0)
        else if s.aL = BitVec.intMin 256 ∨ s.bL = BitVec.intMin 256 then (0, 2)
        else if m.2 ≠ 0 then (0, m.2)
        else if m.1.msb then (0, 2)
        else (if s.aL.msb != s.bL.msb then -m.1 else m.1, 0))

/-- 42_multiply.md R142: the wrapped product unless the source's division test finds overflow, and that test is
the exact range condition. -/
def Obligations.MulIntIsExactOrOverflow : Prop :=
  decode 0x0C = .ok .mulInt ∧
  ∀ s : State,
    Completes .mulInt s
      (if s.aL = 0 then (0, 0)
        else if (s.aL.toInt = -1 ∧ s.bL = BitVec.intMin 256) ∨
          (s.aL * s.bL).toInt.tdiv s.aL.toInt ≠ s.bL.toInt then (0, 2)
        else (s.aL * s.bL, 0)) ∧
    (s.aL ≠ 0 → (((s.aL.toInt = -1 ∧ s.bL = BitVec.intMin 256) ∨
        (s.aL * s.bL).toInt.tdiv s.aL.toInt ≠ s.bL.toInt) ↔
      (s.aL.toInt * s.bL.toInt < -2 ^ 255 ∨ 2 ^ 255 - 1 < s.aL.toInt * s.bL.toInt)))

/-- 42_multiply.md R143: `SQUARE` is `MUL A, A` with flags 0, with its errors as thresholds on the exact
square. -/
def Obligations.SquareIsMulByItself : Prop :=
  decode 0x0D = .ok .square ∧
  ∀ s : State, Completes .square s (execute 0x0B s.aL s.aL) ∧
    execute 0x0B s.aL s.aL =
      (if 2 ^ 128 * 2 ^ 255 ≤ s.aL.toInt * s.aL.toInt then (0, 2)
        else if s.aL ≠ 0 ∧ s.aL.toInt * s.aL.toInt < 2 ^ 128 then (0, 5)
        else (BitVec.ofInt 256 (s.aL.toInt * s.aL.toInt / 2 ^ 128), 0))

/-- 42_multiply.md R144: identity with its exception, commutativity of the outcome, one times one. -/
def Obligations.MultiplierLaws : Prop :=
  (∀ (x : Word) (f : RoundingFlags), execute (flagWord 0x0B f) x (BitVec.ofInt 256 (2 ^ 128)) =
    if x = BitVec.intMin 256 then (0, 2) else (x, 0)) ∧
  (∀ (a b : Word) (f : RoundingFlags),
    execute (flagWord 0x0B f) a b = execute (flagWord 0x0B f) b a)

/-! ### Divider (spec/43_divide.md) -/

/-- 43_divide.md R160 in its closed form: with `p` the precision budget and `e = min(p, 128)`, the truncated
result is `floor(x * 2^e / y) * 2^(128 - e)`, inexact iff `x * 2^e` is no multiple of `y`; with `p >= 128` it
never leaves the word, below it stays within `2^(128 - p)` of the exact quotient. The tests come in the rule's
order. -/
def Obligations.DivMagHasItsClosedForm : Prop :=
  (∀ f, decode (flagWord 0x0E f) = .ok (.divMag f)) ∧
  ∀ (s : State) (f : RoundingFlags) (x y p e r : Nat), x = s.aL.toNat → y = s.bL.toNat →
    p = clz256 x + ctz256 y → e = min p 128 → r = x * 2 ^ e / y * 2 ^ (128 - e) →
    Completes (.divMag f) s
      (if y = 0 then (0, 3)
        else if x = 0 then (0, 0)
        else if p < 64 then (0, 4)
        else if 2 ^ 256 ≤ r then (0, 2)
        else if f.ido = false ∧ r = 0 then (0, 5)
        else if f.ru = true ∧ x * 2 ^ e % y ≠ 0 ∧ r < 2 ^ 255 - 1 then (BitVec.ofNat 256 (r + 1), 0)
        else (BitVec.ofNat 256 r, 0)) ∧
    (x ≠ 0 → y ≠ 0 → 128 ≤ p → r = x * 2 ^ 128 / y ∧ r < 2 ^ 256) ∧
    (x ≠ 0 → y ≠ 0 → p < 128 → r ≤ x * 2 ^ 128 / y ∧ x * 2 ^ 128 / y < r + 2 ^ (128 - p))

/-- 43_divide.md R161: `abs` of both operands, the outcome of `DIVMAG` on the magnitudes, the top-bit test,
the sign; no zero short-circuit. -/
def Obligations.DivIsSignedDivMag : Prop :=
  (∀ f, decode (flagWord 0x0F f) = .ok (.div f)) ∧
  ∀ (s : State) (f : RoundingFlags) (m : Word × StatusCode),
    m = execute (flagWord 0x0E f) (if s.aL.msb then -s.aL else s.aL) (if s.bL.msb then -s.bL else s.bL) →
    Completes (.div f) s
      (if s.aL = BitVec.intMin 256 ∨ s.bL = BitVec.intMin 256 then (0, 2)
        else if m.2 ≠ 0 then (0, m.2)
        else if m.1.msb then (0, 2)
        else (if s.aL.msb != s.bL.msb then -m.1 else m.1, 0))

/-- 43_divide.md R162: the truncated signed quotient, the precision-loss test on a positive dividend only, and
`ROUND_UP` as +1 raw on an inexact one, whose bound never bites. -/
def Obligations.DivIntTruncatesAndRoundsUpward : Prop :=
  (∀ f, decode (flagWord 0x10 f) = .ok (.divInt f)) ∧
  ∀ (s : State) (f : RoundingFlags), Completes (.divInt f) s
    (if s.bL = 0 then (0, 3)
      else if s.aL = BitVec.intMin 256 ∧ s.bL.toInt = -1 then (0, 2)
      else if f.ido = false ∧ 0 < s.aL.toInt ∧ s.aL.toInt.natAbs < s.bL.toInt.natAbs then (0, 5)
      else if f.ru = true ∧ s.aL.srem s.bL ≠ 0 then (s.aL.sdiv s.bL + 1, 0)
      else (s.aL.sdiv s.bL, 0))

/-- 43_divide.md R163: identity with its exception, and the division by zero of the source's scenario. -/
def Obligations.DividerLaws : Prop :=
  (∀ (x : Word) (f : RoundingFlags), execute (flagWord 0x0F f) x (BitVec.ofInt 256 (2 ^ 128)) =
    if x = BitVec.intMin 256 then (0, 2) else (x, 0)) ∧
  (∀ x : Word, execute 0x0F x 0 = if x = BitVec.intMin 256 then (0, 2) else (0, 3))

/-! ### Square root (spec/44_sqrt.md) -/

/-- 44_sqrt.md R180: `DomainError` on a negative operand, else the floor of the root shifted by 64, so that
`PrecisionError` is never reached; and the source's property with its derived bound, that the root of a square
is the absolute value less than 64 bits of fraction below (95_test_vectors.md P6). -/
def Obligations.SqrtIsTheShiftedRoot : Prop :=
  decode 0x11 = .ok .sqrt ∧
  (∀ x m b : Word, execute 0x0B x x = (m, 0) → ∃ q : Word, execute 0x11 m b = (q, 0) ∧
    q.toNat ≤ x.toInt.natAbs ∧ x.toInt.natAbs < q.toNat + 2 ^ 64) ∧
  ∀ s : State, ∃ root : Nat, root * root ≤ s.aL.toNat ∧ s.aL.toNat < (root + 1) * (root + 1) ∧
    root < 2 ^ 128 ∧
    Completes .sqrt s (if s.aL.msb then (0, 6) else (BitVec.ofNat 256 (root * 2 ^ 64), 0))

/-- 44_sqrt.md R181: the greatest integer whose square is not above the operand. -/
def Obligations.SqrtUIsTheFloorOfTheRoot : Prop :=
  decode 0x12 = .ok .sqrtU ∧
  ∀ s : State, ∃ root : Nat, root * root ≤ s.aL.toNat ∧ s.aL.toNat < (root + 1) * (root + 1) ∧
    root < 2 ^ 128 ∧ Completes .sqrtU s (BitVec.ofNat 256 root, 0)

/-- 44_sqrt.md R182: the source's Newton loop ends, for every number, at the floor of its square root, and for
the value of a word that is what `SQRTU` gives. -/
def Obligations.NewtonLoopIsTheRootOfSqrtU : Prop :=
  (∀ n : Nat, ∃ fuel root : Nat, newtonLoop n fuel n 1 = some root ∧ root * root ≤ n ∧
    n < (root + 1) * (root + 1)) ∧
  (∀ (x b : Word) (fuel root : Nat), newtonLoop x.toNat fuel x.toNat 1 = some root →
    execute 0x12 x b = (BitVec.ofNat 256 root, 0))

/-! ### Bit counting (spec/45_bitcount.md) -/

/-- 45_bitcount.md R190: 256 at zero, else the place of the most significant set bit. -/
def Obligations.ClzFindsTheTopBit : Prop :=
  decode 0x13 = .ok .clz ∧
  ∀ s : State, ∃ k : Nat, Completes .clz s (BitVec.ofNat 256 k, 0) ∧
    if s.aL = 0 then k = 256
    else k < 256 ∧ s.aL.getLsbD (255 - k) = true ∧ ∀ j, 255 - k < j → s.aL.getLsbD j = false

/-- 45_bitcount.md R191: 256 at zero, else the place of the least significant set bit. -/
def Obligations.CtzFindsTheBottomBit : Prop :=
  decode 0x14 = .ok .ctz ∧
  ∀ s : State, ∃ k : Nat, Completes .ctz s (BitVec.ofNat 256 k, 0) ∧
    if s.aL = 0 then k = 256
    else k < 256 ∧ s.aL.getLsbD k = true ∧ ∀ j, j < k → s.aL.getLsbD j = false
end

