-- ==== Sys2Proof/Laws/Operands.lean ====
section
/-! SUPPORT. What the pseudocode primitives of Machine/Operands.lean compute: the defining property of the
integer square root and of the two bit counts, and how reading and writing words fit together. -/

namespace Sys2Proof.Laws

open Sys2Proof.Machine

/-! ### Reading and writing words -/

theorem u256_lt (w : Word) : u256 w < 2 ^ 256 := w.isLt

theorem s256_ge (w : Word) : MIN_RAW ≤ s256 w := by
  have h := BitVec.le_toInt (x := w)
  simpa [MIN_RAW, s256] using h

theorem s256_le (w : Word) : s256 w ≤ MAX_RAW := by
  have h := BitVec.toInt_lt (x := w)
  simp only [MAX_RAW, s256]
  norm_num at h ⊢
  omega

/-- A signed word is read back as the value it was written from. -/
theorem s256_bits256 {v : Int} (h1 : MIN_RAW ≤ v) (h2 : v ≤ MAX_RAW) : s256 (bits256 v) = v := by
  simp only [MIN_RAW, MAX_RAW] at h1 h2
  simp only [s256, bits256, BitVec.toInt_ofInt, Int.bmod_def]
  norm_num at h1 h2 ⊢
  split <;> omega

/-- An unsigned word is read back as the value it was written from. -/
theorem u256_bits256 {v : Nat} (h : v < 2 ^ 256) : u256 (bits256 v) = v := by
  simp only [u256, bits256, BitVec.ofInt_natCast, BitVec.toNat_ofNat]
  exact Nat.mod_eq_of_lt h

/-- Writing what was read signed gives the word back. -/
theorem bits256_s256 (w : Word) : bits256 (s256 w) = w := by simp [bits256, s256]

/-- Writing what was read unsigned gives the word back. -/
theorem bits256_u256 (w : Word) : bits256 (u256 w) = w := by simp [bits256, u256]

/-- `a >> n` is the floor of the quotient. -/
theorem shiftRightInt_eq_div (a : Int) (n : Nat) : shiftRightInt a n = a / 2 ^ n := by
  rw [shiftRightInt, Int.fdiv_eq_ediv_of_nonneg _ (by positivity)]

/-- `trem` is the remainder of the truncated quotient. -/
theorem trem_eq (a b : Int) : trem a b = a.tmod b := by
  have h := Int.mul_tdiv_add_tmod a b
  unfold trem tdiv
  omega

/-! ### The integer square root -/

theorem isqrtBits_spec (k n r : Nat) (h1 : r * r ≤ n) (h2 : n < (r + 2 ^ k) * (r + 2 ^ k)) :
    isqrtBits k n r * isqrtBits k n r ≤ n ∧
      n < (isqrtBits k n r + 1) * (isqrtBits k n r + 1) := by
  induction k generalizing r with
  | zero => simpa [isqrtBits] using ⟨h1, h2⟩
  | succ k ih =>
    rw [isqrtBits]
    split
    · next h =>
      refine ih _ h ?_
      have : r + 2 ^ k + 2 ^ k = r + 2 ^ (k + 1) := by rw [Nat.pow_succ]; omega
      rwa [this]
    · next h => exact ih _ h1 (by omega)

/-- `isqrt n` is the floor of the square root of every number below `2^256`. -/
theorem isqrt_spec (n : Nat) (h : n < 2 ^ 256) :
    isqrt n * isqrt n ≤ n ∧ n < (isqrt n + 1) * (isqrt n + 1) := by
  refine isqrtBits_spec 128 n 0 (by omega) ?_
  norm_num at h ⊢
  exact h

/-- The floor of the square root is unique. -/
theorem isqrt_unique {n s : Nat} (h : n < 2 ^ 256) (h1 : s * s ≤ n) (h2 : n < (s + 1) * (s + 1)) :
    isqrt n = s := by
  obtain ⟨h3, h4⟩ := isqrt_spec n h
  have a : s < isqrt n + 1 := by by_contra hc; nlinarith
  have b : isqrt n < s + 1 := by by_contra hc; nlinarith
  omega

theorem isqrt_lt (n : Nat) (h : n < 2 ^ 256) : isqrt n < 2 ^ 128 := by
  have h3 := (isqrt_spec n h).1
  by_contra hc
  have : (2 ^ 128 : Nat) * 2 ^ 128 ≤ isqrt n * isqrt n := Nat.mul_le_mul (by omega) (by omega)
  omega

/-! ### The bit counts -/

theorem clzBits_le (k n : Nat) : clzBits k n ≤ k := by
  induction k with
  | zero => simp [clzBits]
  | succ k ih => rw [clzBits]; split <;> omega

/-- The count of leading zeros of a nonzero `k`-bit number places its top bit. -/
theorem clzBits_spec (k n : Nat) (h0 : 0 < n) (h : n < 2 ^ k) :
    clzBits k n < k ∧ 2 ^ (k - 1 - clzBits k n) ≤ n ∧ n < 2 ^ (k - clzBits k n) := by
  induction k with
  | zero => simp at h; omega
  | succ k ih =>
    rw [clzBits]
    split
    · next hk => exact ⟨by omega, by simpa using hk, by simpa using h⟩
    · next hk =>
      obtain ⟨h1, h2, h3⟩ := ih (by omega)
      refine ⟨by omega, ?_, ?_⟩
      · rwa [show k + 1 - 1 - (clzBits k n + 1) = k - 1 - clzBits k n by omega]
      · rwa [show k + 1 - (clzBits k n + 1) = k - clzBits k n by omega]

theorem clzBits_zero (k : Nat) : clzBits k 0 = k := by
  induction k with
  | zero => rfl
  | succ k ih => rw [clzBits, if_neg (by have := Nat.two_pow_pos k; omega), ih]

/-- The count of leading zeros of a nonzero word (45_bitcount.md R190). -/
theorem clz256_spec (n : Nat) (h0 : 0 < n) (h : n < 2 ^ 256) :
    clz256 n < 256 ∧ 2 ^ (255 - clz256 n) ≤ n ∧ n < 2 ^ (256 - clz256 n) :=
  clzBits_spec 256 n h0 h

theorem clz256_zero : clz256 0 = 256 := clzBits_zero 256

theorem clz256_le (n : Nat) : clz256 n ≤ 256 := clzBits_le 256 n

theorem ctzBits_le (k n : Nat) : ctzBits k n ≤ k := by
  induction k generalizing n with
  | zero => simp [ctzBits]
  | succ k ih => rw [ctzBits]; split <;> [omega; exact Nat.succ_le_succ (ih _)]

theorem ctzBits_zero (k : Nat) : ctzBits k 0 = k := by
  induction k with
  | zero => rfl
  | succ k ih => rw [ctzBits]; simp [ih]

/-- The count of trailing zeros of a nonzero `k`-bit number is the power of two in it. -/
theorem ctzBits_spec (k n : Nat) (h0 : 0 < n) (h : n < 2 ^ k) :
    ctzBits k n < k ∧ ∃ m, m % 2 = 1 ∧ n = m * 2 ^ ctzBits k n := by
  induction k generalizing n with
  | zero => simp at h; omega
  | succ k ih =>
    rw [ctzBits]
    split
    · next hn => exact ⟨by omega, n, hn, by simp⟩
    · next hn =>
      obtain ⟨h1, m, hm, he⟩ := ih (n / 2) (by omega) (by rw [Nat.pow_succ] at h; omega)
      refine ⟨by omega, m, hm, ?_⟩
      rw [Nat.pow_succ, ← Nat.mul_assoc, ← he]
      omega

/-- The count of trailing zeros of a nonzero word (45_bitcount.md R191). -/
theorem ctz256_spec (n : Nat) (h0 : 0 < n) (h : n < 2 ^ 256) :
    ctz256 n < 256 ∧ ∃ m, m % 2 = 1 ∧ n = m * 2 ^ ctz256 n :=
  ctzBits_spec 256 n h0 h

theorem ctz256_zero : ctz256 0 = 256 := ctzBits_zero 256

theorem ctz256_le (n : Nat) : ctz256 n ≤ 256 := ctzBits_le 256 n

end Sys2Proof.Laws
end

