-- ==== Sys2Proof/Laws/Flags.lean ====
section
/-! SUPPORT. What the shared range, rounding and sign computations of Machine/Flags.lean answer. -/

namespace Sys2Proof.Laws

open Sys2Proof.Machine

@[simp] theorem code_ne_zero (k : ErrKind) : k.code ≠ 0 := by cases k <;> decide

theorem signedOrOverflow_ok {r : Int} (h1 : MIN_RAW ≤ r) (h2 : r ≤ MAX_RAW) :
    signedOrOverflow r = .ok r := by
  rw [signedOrOverflow, if_neg (by omega)]

theorem signedOrOverflow_error {r : Int} (h : r < MIN_RAW ∨ MAX_RAW < r) :
    signedOrOverflow r = .error .overflowError := by
  rw [signedOrOverflow, if_pos h]

/-- Everything `signedOrOverflow` can answer. -/
theorem signedOrOverflow_cases (r : Int) :
    (signedOrOverflow r = .ok r ∧ MIN_RAW ≤ r ∧ r ≤ MAX_RAW) ∨
      (signedOrOverflow r = .error .overflowError ∧ (r < MIN_RAW ∨ MAX_RAW < r)) := by
  rcases lt_or_ge r MIN_RAW with h | h
  · exact .inr ⟨signedOrOverflow_error (.inl h), .inl h⟩
  · rcases lt_or_ge MAX_RAW r with h' | h'
    · exact .inr ⟨signedOrOverflow_error (.inr h'), .inr h'⟩
    · exact .inl ⟨signedOrOverflow_ok h h', h, h'⟩

/-- `ROUND_UP` moves a magnitude by at most one unit, and never above `MAX_RAW` unless it was there. -/
theorem roundUpMag_cases (f : RoundingFlags) (inexact : Bool) (r : Nat) :
    roundUpMag f inexact r = r ∨ (roundUpMag f inexact r = r + 1 ∧ (r : Int) < MAX_RAW) := by
  rw [roundUpMag]
  split
  · next h => exact .inr ⟨rfl, h.2.2⟩
  · exact .inl rfl

theorem roundUpInt_cases (f : RoundingFlags) (inexact : Bool) (q : Int) :
    roundUpInt f inexact q = q ∨ (roundUpInt f inexact q = q + 1 ∧ q < MAX_RAW) := by
  rw [roundUpInt]
  split
  · next h => exact .inr ⟨rfl, h.2.2⟩
  · exact .inl rfl

/-- Everything the sign and top-bit step can answer. -/
theorem reattachSign_cases (a b : Int) (mag : Except ErrKind Nat) :
    (∃ k, mag = .error k ∧ reattachSign a b mag = .error k) ∨
      (∃ r, mag = .ok r ∧ 2 ^ 255 ≤ r ∧ reattachSign a b mag = .error .overflowError) ∨
      (∃ r, mag = .ok r ∧ r < 2 ^ 255 ∧
        reattachSign a b mag = .ok (if decide (a < 0) != decide (b < 0) then -(r : Int) else r)) := by
  cases mag with
  | error k => exact .inl ⟨k, rfl, rfl⟩
  | ok r =>
    rcases Nat.lt_or_ge r (2 ^ 255) with h | h
    · refine .inr (.inr ⟨r, rfl, h, ?_⟩)
      simp only [reattachSign, if_neg (Nat.not_le.mpr h)]
      split <;> rfl
    · exact .inr (.inl ⟨r, rfl, h, by simp only [reattachSign, if_pos h]⟩)

end Sys2Proof.Laws
end

