-- ==== Sys2Proof/Laws/Magnitude.lean ====
section
/-! SUPPORT. What the two magnitude operations, which MUL, SQUARE and DIV share with MULMAG and DIVMAG, answer;
and the value of the divider's normalised and re-scaled quotient. -/

namespace Sys2Proof.Laws

open Sys2Proof.Machine

/-- Everything the magnitude multiply can answer. -/
theorem mulMagOp_cases (x y : Nat) (f : RoundingFlags) :
    (mulMagOp x y f = .error .overflowError ∧ 2 ^ 256 ≤ x * y / 2 ^ 128) ∨
      (mulMagOp x y f = .error .precisionLossError ∧
        f.ido = false ∧ x ≠ 0 ∧ y ≠ 0 ∧ x * y < 2 ^ 128) ∨
      (mulMagOp x y f = .ok (roundUpMag f (x * y % 2 ^ 128 != 0) (x * y / 2 ^ 128)) ∧
        x * y / 2 ^ 128 < 2 ^ 256) := by
  unfold mulMagOp
  simp only
  split
  · next h => exact .inl ⟨rfl, h⟩
  · next h =>
    split
    · next h' =>
      refine .inr (.inl ⟨rfl, h'.1, h'.2.1, h'.2.2.1, ?_⟩)
      have := h'.2.2.2
      omega
    · exact .inr (.inr ⟨rfl, Nat.not_le.mp h⟩)

/-- The divisor without its trailing zeros, when they are known. -/
theorem shiftRight_of_eq_mul {y m k : Nat} (h : y = m * 2 ^ k) : y >>> k = m := by
  rw [Nat.shiftRight_eq_div_pow, h, Nat.mul_div_cancel _ (Nat.two_pow_pos k)]

/-- Dropping `a + k - 128` bits of the quotient by the odd part leaves the exact truncated quotient. -/
theorem quotient_shifted_right {x y m a k : Nat} (h : y = m * 2 ^ k) (hk : 128 ≤ a + k) :
    x * 2 ^ a / m / 2 ^ (a + k - 128) = x * 2 ^ 128 / y := by
  obtain ⟨d, hd⟩ := Nat.exists_eq_add_of_le hk
  have e : 2 ^ a * 2 ^ k = 2 ^ 128 * 2 ^ d := by rw [← Nat.pow_add, ← Nat.pow_add, hd]
  rw [show a + k - 128 = d by omega, Nat.div_div_eq_div_mul, h,
    ← Nat.mul_div_mul_right (x * 2 ^ a) _ (Nat.two_pow_pos k), Nat.mul_assoc x, e,
    show x * (2 ^ 128 * 2 ^ d) = x * 2 ^ 128 * 2 ^ d by rw [Nat.mul_assoc],
    show m * 2 ^ d * 2 ^ k = m * 2 ^ k * 2 ^ d by rw [Nat.mul_right_comm],
    Nat.mul_div_mul_right _ _ (Nat.two_pow_pos d)]

/-- The re-scaled quotient of two nonzero words in closed form (43_divide.md R160). -/
theorem rescale_quotient {x y : Nat} (hx : 0 < x) (hx2 : x < 2 ^ 256) (hy : 0 < y) (hy2 : y < 2 ^ 256) :
    rescale ((x <<< clz256 x) / (y >>> ctz256 y)) (clz256 x + ctz256 y) =
      x * 2 ^ min (clz256 x + ctz256 y) 128 / y * 2 ^ (128 - min (clz256 x + ctz256 y) 128) := by
  obtain ⟨-, m, -, hm⟩ := ctz256_spec y hy hy2
  obtain ⟨-, -, -⟩ := clz256_spec x hx hx2
  rw [shiftRight_of_eq_mul hm, Nat.shiftLeft_eq, rescale]
  split
  · next h =>
    rw [Nat.shiftRight_eq_div_pow, quotient_shifted_right hm h, Nat.min_eq_right h]
    simp
  · next h =>
    rw [Nat.shiftLeft_eq, Nat.min_eq_left (by omega)]
    congr 1
    rw [Nat.pow_add, ← Nat.mul_assoc]
    generalize ctz256 y = k at hm
    rw [hm, Nat.mul_div_mul_right _ _ (Nat.two_pow_pos k)]

/-- With a full precision budget the exact truncated quotient fits a word. -/
theorem quotient_lt_of_budget {x y : Nat} (hx : 0 < x) (hx2 : x < 2 ^ 256) (hy : 0 < y) (hy2 : y < 2 ^ 256)
    (hp : 128 ≤ clz256 x + ctz256 y) : x * 2 ^ 128 / y < 2 ^ 256 := by
  obtain ⟨hc, -, hx3⟩ := clz256_spec x hx hx2
  obtain ⟨-, m, hodd, hm⟩ := ctz256_spec y hy hy2
  have hy3 : 2 ^ ctz256 y ≤ y := by
    conv_rhs => rw [hm]
    exact Nat.le_mul_of_pos_left _ (by omega)
  rw [Nat.div_lt_iff_lt_mul hy]
  calc x * 2 ^ 128 < 2 ^ (256 - clz256 x) * 2 ^ 128 := Nat.mul_lt_mul_of_pos_right hx3 (Nat.two_pow_pos _)
    _ = 2 ^ (256 - clz256 x + 128) := (Nat.pow_add ..).symm
    _ ≤ 2 ^ (256 + ctz256 y) := Nat.pow_le_pow_right (by omega) (by omega)
    _ = 2 ^ 256 * 2 ^ ctz256 y := Nat.pow_add ..
    _ ≤ 2 ^ 256 * y := Nat.mul_le_mul_left _ hy3

/-- Everything the magnitude divide can answer on two words. -/
theorem divMagOp_cases (x y : Nat) (f : RoundingFlags) :
    (y = 0 ∧ divMagOp x y f = .error .divisionByZeroError) ∨
      (y ≠ 0 ∧ x = 0 ∧ divMagOp x y f = .ok 0) ∨
      (y ≠ 0 ∧ x ≠ 0 ∧ clz256 x + ctz256 y < 64 ∧ divMagOp x y f = .error .precisionError) ∨
      (y ≠ 0 ∧ x ≠ 0 ∧ 64 ≤ clz256 x + ctz256 y ∧
        ∃ r, r = rescale ((x <<< clz256 x) / (y >>> ctz256 y)) (clz256 x + ctz256 y) ∧
          ((clz256 x + ctz256 y < 128 ∧ 2 ^ 256 ≤ r ∧ divMagOp x y f = .error .overflowError) ∨
            (f.ido = false ∧ r = 0 ∧ divMagOp x y f = .error .precisionLossError) ∨
            ((128 ≤ clz256 x + ctz256 y ∨ r < 2 ^ 256) ∧ (f.ido = true ∨ r ≠ 0) ∧
              divMagOp x y f = .ok (roundUpMag f (r * y != x * 2 ^ 128) r)))) := by
  by_cases hy : y = 0
  · exact .inl ⟨hy, by rw [divMagOp, if_pos hy]⟩
  by_cases hx : x = 0
  · exact .inr (.inl ⟨hy, hx, by rw [divMagOp, if_neg hy, if_pos hx]⟩)
  by_cases hp : clz256 x + ctz256 y < 64
  · exact .inr (.inr (.inl ⟨hy, hx, hp, by rw [divMagOp, if_neg hy, if_neg hx]; exact if_pos hp⟩))
  refine .inr (.inr (.inr ⟨hy, hx, Nat.not_lt.mp hp, _, rfl, ?_⟩))
  rw [divMagOp, if_neg hy, if_neg hx]
  simp only [if_neg hp]
  split
  · next h => exact .inl ⟨h.1, h.2, rfl⟩
  · next h =>
    split
    · next h' => exact .inr (.inl ⟨h'.1, h'.2, rfl⟩)
    · next h' =>
      refine .inr (.inr ⟨by omega, ?_, rfl⟩)
      cases hf : f.ido with
      | true => exact .inl rfl
      | false => exact .inr fun hr => h' ⟨hf, hr⟩

end Sys2Proof.Laws
end

