-- ==== Sys2Proof/Laws/PerInstr.lean ====
section
/-! SUPPORT. The statement made per instruction: its encoding is a legal word of spec/30_encoding.md R66, with
the reserved bit 0 and its own `OP` in bits 4 to 0 (R60, R63). -/

namespace Sys2Proof.Laws.EncodedLegal

/-- The encoding of `i` is legal, has `RSV = 0`, and carries the number of `i` in the field `OP`. -/
def Statement (i : Instr) : Prop :=
  wordLegal (encode i) = true ∧ Cmd.rsv (encode i) = false ∧ Cmd.op (encode i) = i.opNumber

theorem fromInt : Statement .fromInt := ⟨by decide, by decide, by decide⟩

theorem toInt : Statement .toInt := ⟨by decide, by decide, by decide⟩

theorem fromUInt : Statement .fromUInt := ⟨by decide, by decide, by decide⟩

theorem toUInt : Statement .toUInt := ⟨by decide, by decide, by decide⟩

theorem add : Statement .add := ⟨by decide, by decide, by decide⟩

theorem sub : Statement .sub := ⟨by decide, by decide, by decide⟩

theorem neg : Statement .neg := ⟨by decide, by decide, by decide⟩

theorem abs : Statement .abs := ⟨by decide, by decide, by decide⟩

theorem ceil : Statement .ceil := ⟨by decide, by decide, by decide⟩

theorem mulMag (f : RoundingFlags) : Statement (.mulMag f) := by
  rcases f with ⟨_ | _, _ | _⟩ <;> exact ⟨by decide, by decide, by decide⟩

theorem mul (f : RoundingFlags) : Statement (.mul f) := by
  rcases f with ⟨_ | _, _ | _⟩ <;> exact ⟨by decide, by decide, by decide⟩

theorem mulInt : Statement .mulInt := ⟨by decide, by decide, by decide⟩

theorem square : Statement .square := ⟨by decide, by decide, by decide⟩

theorem divMag (f : RoundingFlags) : Statement (.divMag f) := by
  rcases f with ⟨_ | _, _ | _⟩ <;> exact ⟨by decide, by decide, by decide⟩

theorem div (f : RoundingFlags) : Statement (.div f) := by
  rcases f with ⟨_ | _, _ | _⟩ <;> exact ⟨by decide, by decide, by decide⟩

theorem divInt (f : RoundingFlags) : Statement (.divInt f) := by
  rcases f with ⟨_ | _, _ | _⟩ <;> exact ⟨by decide, by decide, by decide⟩

theorem sqrt : Statement .sqrt := ⟨by decide, by decide, by decide⟩

theorem sqrtU : Statement .sqrtU := ⟨by decide, by decide, by decide⟩

theorem clz : Statement .clz := ⟨by decide, by decide, by decide⟩

theorem ctz : Statement .ctz := ⟨by decide, by decide, by decide⟩

theorem fixed1 : Statement .fixed1 := ⟨by decide, by decide, by decide⟩

end Sys2Proof.Laws.EncodedLegal
end

