-- ==== Sys2Proof/Laws/State.lean ====
section
/-! SUPPORT. One lemma per field per update of the state, so that no proof unfolds a record update. -/

namespace Sys2Proof.Laws

open Sys2Proof.Machine

@[simp] theorem advancePins_busy (s : State) : s.advancePins.busy = s.busy := rfl
@[simp] theorem advancePins_rvalid (s : State) : s.advancePins.rvalid = s.rvalid := rfl
@[simp] theorem advancePins_result (s : State) : s.advancePins.result = s.result := rfl
@[simp] theorem advancePins_status (s : State) : s.advancePins.status = s.status := rfl
@[simp] theorem advancePins_cmdL (s : State) : s.advancePins.cmdL = s.cmdL := rfl
@[simp] theorem advancePins_aL (s : State) : s.advancePins.aL = s.aL := rfl
@[simp] theorem advancePins_bL (s : State) : s.advancePins.bL = s.bL := rfl
@[simp] theorem advancePins_remaining (s : State) : s.advancePins.remaining = s.remaining := rfl
@[simp] theorem advancePins_resetDone (s : State) : s.advancePins.resetDone = s.resetDone := rfl
@[simp] theorem advancePins_pins (s : State) : s.advancePins.pins = s.pins.tail := rfl

@[simp] theorem applyReset_busy (s : State) : s.applyReset.busy = false := rfl
@[simp] theorem applyReset_rvalid (s : State) : s.applyReset.rvalid = false := rfl
@[simp] theorem applyReset_result (s : State) : s.applyReset.result = 0 := rfl
@[simp] theorem applyReset_status (s : State) : s.applyReset.status = 0 := rfl
@[simp] theorem applyReset_cmdL (s : State) : s.applyReset.cmdL = 0 := rfl
@[simp] theorem applyReset_aL (s : State) : s.applyReset.aL = 0 := rfl
@[simp] theorem applyReset_bL (s : State) : s.applyReset.bL = 0 := rfl
@[simp] theorem applyReset_remaining (s : State) : s.applyReset.remaining = 0 := rfl
@[simp] theorem applyReset_resetDone (s : State) : s.applyReset.resetDone = true := rfl
@[simp] theorem applyReset_pins (s : State) : s.applyReset.pins = s.pins := rfl

@[simp] theorem accept_busy (s : State) (c : Cmd) (a b : Word) : (s.accept c a b).busy = true := rfl
@[simp] theorem accept_rvalid (s : State) (c : Cmd) (a b : Word) : (s.accept c a b).rvalid = false := rfl
@[simp] theorem accept_result (s : State) (c : Cmd) (a b : Word) : (s.accept c a b).result = s.result := rfl
@[simp] theorem accept_status (s : State) (c : Cmd) (a b : Word) : (s.accept c a b).status = s.status := rfl
@[simp] theorem accept_cmdL (s : State) (c : Cmd) (a b : Word) : (s.accept c a b).cmdL = c := rfl
@[simp] theorem accept_aL (s : State) (c : Cmd) (a b : Word) : (s.accept c a b).aL = a := rfl
@[simp] theorem accept_bL (s : State) (c : Cmd) (a b : Word) : (s.accept c a b).bL = b := rfl
@[simp] theorem accept_remaining (s : State) (c : Cmd) (a b : Word) : (s.accept c a b).remaining = latency c a b := rfl
@[simp] theorem accept_resetDone (s : State) (c : Cmd) (a b : Word) : (s.accept c a b).resetDone = s.resetDone := rfl
@[simp] theorem accept_pins (s : State) (c : Cmd) (a b : Word) : (s.accept c a b).pins = s.pins := rfl

@[simp] theorem work_busy (s : State) : s.work.busy = s.busy := rfl
@[simp] theorem work_rvalid (s : State) : s.work.rvalid = s.rvalid := rfl
@[simp] theorem work_result (s : State) : s.work.result = s.result := rfl
@[simp] theorem work_status (s : State) : s.work.status = s.status := rfl
@[simp] theorem work_cmdL (s : State) : s.work.cmdL = s.cmdL := rfl
@[simp] theorem work_aL (s : State) : s.work.aL = s.aL := rfl
@[simp] theorem work_bL (s : State) : s.work.bL = s.bL := rfl
@[simp] theorem work_remaining (s : State) : s.work.remaining = s.remaining - 1 := rfl
@[simp] theorem work_resetDone (s : State) : s.work.resetDone = s.resetDone := rfl
@[simp] theorem work_pins (s : State) : s.work.pins = s.pins := rfl

@[simp] theorem complete_busy (s : State) (r : Word) (st : StatusCode) : (s.complete r st).busy = false := rfl
@[simp] theorem complete_rvalid (s : State) (r : Word) (st : StatusCode) : (s.complete r st).rvalid = true := rfl
@[simp] theorem complete_result (s : State) (r : Word) (st : StatusCode) : (s.complete r st).result = r := rfl
@[simp] theorem complete_status (s : State) (r : Word) (st : StatusCode) : (s.complete r st).status = st := rfl
@[simp] theorem complete_cmdL (s : State) (r : Word) (st : StatusCode) : (s.complete r st).cmdL = s.cmdL := rfl
@[simp] theorem complete_aL (s : State) (r : Word) (st : StatusCode) : (s.complete r st).aL = s.aL := rfl
@[simp] theorem complete_bL (s : State) (r : Word) (st : StatusCode) : (s.complete r st).bL = s.bL := rfl
@[simp] theorem complete_remaining (s : State) (r : Word) (st : StatusCode) : (s.complete r st).remaining = s.remaining := rfl
@[simp] theorem complete_resetDone (s : State) (r : Word) (st : StatusCode) : (s.complete r st).resetDone = s.resetDone := rfl
@[simp] theorem complete_pins (s : State) (r : Word) (st : StatusCode) : (s.complete r st).pins = s.pins := rfl

@[simp] theorem reset_busy : State.reset.busy = false := rfl
@[simp] theorem reset_rvalid : State.reset.rvalid = false := rfl
@[simp] theorem reset_result : State.reset.result = 0 := rfl
@[simp] theorem reset_status : State.reset.status = 0 := rfl
@[simp] theorem reset_remaining : State.reset.remaining = 0 := rfl
@[simp] theorem reset_resetDone : State.reset.resetDone = true := rfl
@[simp] theorem reset_pins : State.reset.pins = [] := rfl

end Sys2Proof.Laws
end

