-- ==== Sys2Proof/Laws/Step.lean ====
section
/-! SUPPORT. What one rising edge can do, said once; and that every meaning is the completion of its
operation's answer. -/

namespace Sys2Proof.Laws

open Sys2Proof.Machine Sys2Proof.Safety

/-- An answer reaches the registers as `outcomeOf` reads it. -/
theorem finish_eq_complete (s : State) (ans : Answer) :
    s.finish ans = s.complete (outcomeOf ans).1 (outcomeOf ans).2 := by
  cases ans <;> rfl

/-- Every meaning completes its command with the operation's answer on the latched operands. -/
theorem exec_eq_finish (i : Instr) (s : State) : exec i s = .next (s.finish (answer i s.aL s.bL)) := by
  cases i <;> rfl

/-- What a command completes with is its operation's answer on the latched operands. -/
theorem completes_iff (i : Instr) (s : State) (o : Word × StatusCode) :
    Completes i s o ↔ outcomeOf (answer i s.aL s.bL) = o := by
  simp only [Completes, exec_eq_finish, finish_eq_complete]
  constructor
  · intro h
    have h := Host.Outcome.next.inj h
    have h1 := congrArg State.result h
    have h2 := congrArg State.status h
    simp only [complete_result, complete_status] at h1 h2
    exact Prod.ext h1 h2
  · rintro rfl
    rfl

/-- At a completion edge the answer of the latched word, legal or not, is written. -/
theorem step_of_completion {s : State} (h : s.edge = .completion) :
    step s = .next (s.advancePins.complete (execute s.cmdL s.aL s.bL).1 (execute s.cmdL s.aL s.bL).2) := by
  rw [step, h]
  simp only [execute]
  split
  · next i hi => rw [exec_eq_finish, finish_eq_complete, hi]; rfl
  · next r hr => rw [hr]; rfl

theorem step_of_reset {s : State} (h : s.edge = .reset) : step s = .next s.advancePins.applyReset := by
  rw [step, h]

theorem step_of_unspecified {s : State} (h : s.edge = .unspecified) : step s = .fault .stateUnspecified := by
  rw [step, h]

theorem step_of_working {s : State} (h : s.edge = .working) : step s = .next s.advancePins.work := by
  rw [step, h]

theorem step_of_acceptance {s : State} (h : s.edge = .acceptance) : step s = .next s.acceptSampled := by
  rw [step, h]

theorem step_of_idle {s : State} (h : s.edge = .idle) : step s = .next s.advancePins := by rw [step, h]

/-- What each kind of edge says about the state before it. -/
theorem edge_spec (s : State) :
    match s.edge with
    | .reset => s.sampled.rst = true
    | .unspecified => s.sampled.rst = false ∧ s.resetDone = false
    | .completion => s.sampled.rst = false ∧ s.resetDone = true ∧ s.busy = true ∧ s.remaining ≤ 1
    | .working => s.sampled.rst = false ∧ s.resetDone = true ∧ s.busy = true ∧ 2 ≤ s.remaining
    | .acceptance => s.sampled.rst = false ∧ s.resetDone = true ∧ s.busy = false ∧ s.sampled.start = true
    | .idle => s.sampled.rst = false ∧ s.resetDone = true ∧ s.busy = false ∧ s.sampled.start = false := by
  rw [State.edge]
  cases h1 : s.sampled.rst <;> cases h2 : s.resetDone <;> cases h3 : s.busy <;>
    cases h4 : s.sampled.start <;> simp <;> by_cases h5 : s.remaining ≤ 1 <;> simp [h5] <;> omega

/-- Everything an edge that answers a next state can have done. -/
theorem step_cases {s s' : State} (h : step s = .next s') :
    (s.edge = .reset ∧ s' = s.advancePins.applyReset) ∨
      (s.edge = .completion ∧
        s' = s.advancePins.complete (execute s.cmdL s.aL s.bL).1 (execute s.cmdL s.aL s.bL).2) ∨
      (s.edge = .working ∧ s' = s.advancePins.work) ∨
      (s.edge = .acceptance ∧ s' = s.acceptSampled) ∨
      (s.edge = .idle ∧ s' = s.advancePins) := by
  cases he : s.edge with
  | reset => rw [step_of_reset he] at h; cases h; exact .inl ⟨rfl, rfl⟩
  | unspecified => rw [step_of_unspecified he] at h; cases h
  | completion => rw [step_of_completion he] at h; cases h; exact .inr (.inl ⟨rfl, rfl⟩)
  | working => rw [step_of_working he] at h; cases h; exact .inr (.inr (.inl ⟨rfl, rfl⟩))
  | acceptance =>
    rw [step_of_acceptance he] at h; cases h; exact .inr (.inr (.inr (.inl ⟨rfl, rfl⟩)))
  | idle => rw [step_of_idle he] at h; cases h; exact .inr (.inr (.inr (.inr ⟨rfl, rfl⟩)))

/-- A run goes on from the state its first edge answers. -/
theorem runEdges_succ {n : Nat} {s t : State} (h : step s = .next t) : runEdges (n + 1) s = runEdges n t := by
  simp only [runEdges, h]

/-- Runs compose. -/
theorem runEdges_add {m n : Nat} {s t : State} (h : runEdges m s = .next t) :
    runEdges (m + n) s = runEdges n t := by
  induction m generalizing s with
  | zero =>
    simp only [runEdges] at h
    cases h
    rw [Nat.zero_add]
  | succ m ih =>
    cases hs : step s with
    | next u =>
      rw [runEdges_succ hs] at h
      rw [Nat.add_right_comm, runEdges_succ hs, ih h]
    | fault r => simp [runEdges, hs] at h
    | refused r => simp [runEdges, hs] at h

/-- The kind of an edge, read off the ports the host drives at it. -/
theorem edge_of_pins {s : State} {p : Pins} {rest : List Pins} (h : s.pins = p :: rest) :
    s.edge = if p.rst then .reset
      else if !s.resetDone then .unspecified
      else if s.busy then (if s.remaining ≤ 1 then .completion else .working)
      else if p.start then .acceptance
      else .idle := by
  simp only [State.edge, State.sampled, h]

end Sys2Proof.Laws
end

