-- ==== Sys2Proof/Laws/Words.lean ====
section
/-! SUPPORT. Reading and writing words against the word arithmetic of `BitVec`: the sum, difference, product and
shift of words are those of the values they write, signs are top bits. -/

namespace Sys2Proof.Laws

open Sys2Proof.Machine

theorem bits256_add (a b : Int) : bits256 (a + b) = bits256 a + bits256 b := by
  simp [bits256, BitVec.ofInt_add]

theorem bits256_mul (a b : Int) : bits256 (a * b) = bits256 a * bits256 b := by
  simp [bits256, BitVec.ofInt_mul]

theorem bits256_neg (a : Int) : bits256 (-a) = -bits256 a := by simp [bits256, BitVec.ofInt_neg]

theorem bits256_sub (a b : Int) : bits256 (a - b) = bits256 a - bits256 b := by
  rw [sub_eq_add_neg, bits256_add, bits256_neg, BitVec.sub_eq_add_neg]

theorem bits256_natCast (n : Nat) : bits256 n = BitVec.ofNat 256 n := BitVec.ofInt_natCast ..

/-- Multiplying the signed value by `2^k` shifts the word. -/
theorem bits256_shiftLeftInt (w : Word) (k : Nat) : bits256 (shiftLeftInt (s256 w) k) = w <<< k := by
  have h : ((2 : Int) ^ k) = ((2 ^ k : Nat) : Int) := by norm_num
  rw [shiftLeftInt, bits256_mul, bits256_s256, h, bits256_natCast]
  apply BitVec.eq_of_toNat_eq
  simp [BitVec.toNat_mul, Nat.shiftLeft_eq]

theorem msb_eq_neg (w : Word) : w.msb = decide (s256 w < 0) := BitVec.msb_eq_toInt

theorem eq_intMin_iff (w : Word) : w = BitVec.intMin 256 ↔ s256 w = MIN_RAW := by
  rw [← BitVec.toInt_inj]
  simp [BitVec.toInt_intMin, s256, MIN_RAW]

theorem eq_zero_iff (w : Word) : w = 0 ↔ s256 w = 0 := by
  rw [← BitVec.toInt_inj]
  simp

/-- A word with its sign bit clear has one value, read either way. -/
theorem s256_eq_u256 {w : Word} (h : 0 ≤ s256 w) : s256 w = u256 w := by
  have := w.isLt
  have h2 := BitVec.toInt_eq_toNat_cond w
  simp only [s256, u256] at *
  split at h2 <;> omega

/-- The magnitude word of an operand is written from the absolute value. -/
theorem magnitude_eq (w : Word) : (if w.msb then -w else w) = BitVec.ofNat 256 (s256 w).natAbs := by
  rw [← bits256_natCast, msb_eq_neg]
  by_cases h : s256 w < 0
  · rw [if_pos (by simpa using h), show (((s256 w).natAbs : Nat) : Int) = -s256 w by omega, bits256_neg,
      bits256_s256]
  · rw [if_neg (by simpa using h), show (((s256 w).natAbs : Nat) : Int) = s256 w by omega, bits256_s256]

theorem natAbs_s256_le (w : Word) : (s256 w).natAbs ≤ 2 ^ 255 := by
  have h1 := s256_ge w
  have h2 := s256_le w
  simp only [MIN_RAW, MAX_RAW] at h1 h2
  omega

end Sys2Proof.Laws
end

