-- ==== Sys2Proof/Tests/Slice0.lean ====
section
/-! SUPPORT. The model's own tests: words written out bit by bit from spec/30_encoding.md, ill-formed words,
expected outcomes from the tables of spec/95_test_vectors.md, and states that meet the hypotheses of the
statements. -/

namespace Sys2Proof.Tests

-- One theorem at a time: side by side, their kernel evaluations need more memory than the check allows.
set_option Elab.async false

open Sys2Proof.Machine Sys2Proof.Safety Sys2Proof.Laws

/-- The command `c` in flight on `a` and `b`, its completion due at the next edge. -/
def inFlight (c : Cmd) (a b : Word) : State :=
  { State.reset with busy := true, cmdL := c, aL := a, bL := b, remaining := 1 }

/-- What the host reads after the next edge. -/
def after (c : Cmd) (a b : Word) : Option (Word × StatusCode) :=
  match step (inFlight c a b) with
  | .next t => t.outcome
  | .fault _ => none
  | .refused _ => none

/-- A host that presents a command. -/
def presents (c : Cmd) (a b : Word) : Pins := ⟨false, true, c, a, b⟩

/-- A host that asserts reset. -/
def resets : Pins := ⟨true, false, 0, 0, 0⟩

/-! ### Well-formed words -/

/-- 30_encoding.md R66 (a), (b), (c): each check refuses an ill-formed word and passes a legal one. -/
theorem test_wellFormed_smoke :
    reservedBitClear 0x80 = false ∧ opAssigned 0x00 = false ∧ opAssigned 0x16 = false ∧
      flagsAllowed 0x25 = false ∧ flagsAllowed 0x45 = false ∧ wordLegal 0x8B = false ∧
      wordLegal 0x6B = true ∧ wordLegal 0x15 = true := by decide

/-- 95_test_vectors.md W1 to W13: illegal words, by the reason met first. -/
theorem test_decode_refuses :
    decode 0x00 = .error .reservedOp ∧ decode 0x1F = .error .reservedOp ∧
      decode 0x25 = .error .flagsNotTaken ∧ decode 0x6D = .error .flagsNotTaken ∧
      decode 0x8B = .error .reservedBit ∧ decode 0xFF = .error .reservedBit := by decide

/-! ### Decoding, every constructor by a word written out as RSV IDO RU OP -/

theorem test_decode_converter :
    decode 0b00000001 = .ok .fromInt ∧ decode 0b00000010 = .ok .toInt ∧ decode 0b00000011 = .ok .fromUInt ∧
      decode 0b00000100 = .ok .toUInt ∧ decode 0b00010101 = .ok .fixed1 := by decide

theorem test_decode_additive :
    decode 0b00000101 = .ok .add ∧ decode 0b00000110 = .ok .sub ∧ decode 0b00000111 = .ok .neg ∧
      decode 0b00001000 = .ok .abs ∧ decode 0b00001001 = .ok .ceil := by decide

theorem test_decode_multiplier :
    decode 0b00001010 = .ok (.mulMag ⟨false, false⟩) ∧ decode 0b00101011 = .ok (.mul ⟨true, false⟩) ∧
      decode 0b01001011 = .ok (.mul ⟨false, true⟩) ∧ decode 0b01101010 = .ok (.mulMag ⟨true, true⟩) ∧
      decode 0b00001100 = .ok .mulInt ∧ decode 0b00001101 = .ok .square := by decide

theorem test_decode_divider :
    decode 0b00101110 = .ok (.divMag ⟨true, false⟩) ∧ decode 0b01001111 = .ok (.div ⟨false, true⟩) ∧
      decode 0b01110000 = .ok (.divInt ⟨true, true⟩) := by decide

theorem test_decode_root_and_bits :
    decode 0b00010001 = .ok .sqrt ∧ decode 0b00010010 = .ok .sqrtU ∧ decode 0b00010011 = .ok .clz ∧
      decode 0b00010100 = .ok .ctz := by decide

/-- The table word of `DIVINT.RU.IDO` (opcode_table.json, legal words of DIVINT). -/
theorem test_tableWord : decodeTableWord 8 0x70 = some (.divInt ⟨true, true⟩) ∧ decodeTableWord 8 0x80 = none := by
  decide

/-! ### One step of each operation -/

/-- 95_test_vectors.md W10, W14, W16. -/
theorem test_words_run :
    after 0x80 (1 <<< 128) (1 <<< 128) = some (0, 7) ∧
    after 0x6B (1 <<< 128) (1 <<< 128) = some ((1 <<< 128 : Word), 0) ∧
    after 0x70 (1 <<< 128) (1 <<< 128) = some (1, 0) := by decide

/-- R100; expected outcomes from 95_test_vectors.md V2, V5. -/
theorem test_fromInt_results :
    after 0x01 0xffffffffffffffffffffffffffffffffffffffffffffffffffffffffffffffff 0 =
      some (0xffffffffffffffffffffffffffffffff00000000000000000000000000000000, 0) ∧
    after 0x01 0xffffffffffffffffffffffffffffffff80000000000000000000000000000000 0 =
      some (0x8000000000000000000000000000000000000000000000000000000000000000, 0) := by decide

/-- R100; expected outcomes from 95_test_vectors.md V4, V6, V7. -/
theorem test_fromInt_corners :
    after 0x01 0x7fffffffffffffffffffffffffffffff 0 =
      some (0x7fffffffffffffffffffffffffffffff00000000000000000000000000000000, 0) ∧
    after 0x01 0x80000000000000000000000000000000 0 =
      some (0, 1) ∧
    after 0x01 0xffffffffffffffffffffffffffffffff7fffffffffffffffffffffffffffffff 0 =
      some (0, 1) := by decide

/-- R101; expected outcomes from 95_test_vectors.md V8, V9. -/
theorem test_toInt_results :
    after 0x02 0x180000000000000000000000000000000 0 =
      some (1, 0) ∧
    after 0x02 0xfffffffffffffffffffffffffffffffe80000000000000000000000000000000 0 =
      some (0xfffffffffffffffffffffffffffffffffffffffffffffffffffffffffffffffe, 0) := by decide

/-- R101; expected outcomes from 95_test_vectors.md V10, V11. -/
theorem test_toInt_corners :
    after 0x02 0xffffffffffffffffffffffffffffffffffffffffffffffffffffffffffffffff 0 =
      some (0xffffffffffffffffffffffffffffffffffffffffffffffffffffffffffffffff, 0) ∧
    after 0x02 0x8000000000000000000000000000000000000000000000000000000000000000 0 =
      some (0xffffffffffffffffffffffffffffffff80000000000000000000000000000000, 0) := by decide

/-- R102; expected outcomes from 95_test_vectors.md V14, V15. -/
theorem test_fromUInt_results :
    after 0x03 7 0 =
      some (0x700000000000000000000000000000000, 0) ∧
    after 0x03 0x7fffffffffffffffffffffffffffffff 0 =
      some (0x7fffffffffffffffffffffffffffffff00000000000000000000000000000000, 0) := by decide

/-- R102; expected outcomes from 95_test_vectors.md V16, V17. -/
theorem test_fromUInt_corners :
    after 0x03 0x80000000000000000000000000000000 0 =
      some (0, 1) ∧
    after 0x03 0xffffffffffffffffffffffffffffffffffffffffffffffffffffffffffffffff 0 =
      some (0, 1) := by decide

/-- R103; expected outcomes from 95_test_vectors.md V18, V20. -/
theorem test_toUInt_results :
    after 0x04 0x2c0000000000000000000000000000000 0 =
      some (2, 0) ∧
    after 0x04 0x7fffffffffffffffffffffffffffffffffffffffffffffffffffffffffffffff 0 =
      some (0x7fffffffffffffffffffffffffffffff, 0) := by decide

/-- R103; expected outcomes from 95_test_vectors.md V21, V22. -/
theorem test_toUInt_corners :
    after 0x04 0xffffffffffffffffffffffffffffffffffffffffffffffffffffffffffffffff 0 =
      some (0, 1) ∧
    after 0x04 0x8000000000000000000000000000000000000000000000000000000000000000 0 =
      some (0, 1) := by decide

/-- R104; expected outcomes from 95_test_vectors.md V23. -/
theorem test_fixed1_results :
    after 0x15 0 0 =
      some (0x100000000000000000000000000000000, 0) := by decide

/-- R120; expected outcomes from 95_test_vectors.md V24, V27. -/
theorem test_add_results :
    after 0x05 0x100000000000000000000000000000000 0x200000000000000000000000000000000 =
      some (0x300000000000000000000000000000000, 0) ∧
    after 0x05 0x7fffffffffffffffffffffffffffffffffffffffffffffffffffffffffffffff 0x8000000000000000000000000000000000000000000000000000000000000000 =
      some (0xffffffffffffffffffffffffffffffffffffffffffffffffffffffffffffffff, 0) := by decide

/-- R120; expected outcomes from 95_test_vectors.md V25, V26. -/
theorem test_add_corners :
    after 0x05 0x7fffffffffffffffffffffffffffffffffffffffffffffffffffffffffffffff 1 =
      some (0, 2) ∧
    after 0x05 0x8000000000000000000000000000000000000000000000000000000000000000 0xffffffffffffffffffffffffffffffffffffffffffffffffffffffffffffffff =
      some (0, 2) := by decide

/-- R121; expected outcomes from 95_test_vectors.md V29, V32. -/
theorem test_sub_results :
    after 0x06 0x80000000000000000000000000000000 0xc0000000000000000000000000000000 =
      some (0xffffffffffffffffffffffffffffffffc0000000000000000000000000000000, 0) ∧
    after 0x06 0xffffffffffffffffffffffffffffffffffffffffffffffffffffffffffffffff 0x8000000000000000000000000000000000000000000000000000000000000000 =
      some (0x7fffffffffffffffffffffffffffffffffffffffffffffffffffffffffffffff, 0) := by decide

/-- R121; expected outcomes from 95_test_vectors.md V30, V31. -/
theorem test_sub_corners :
    after 0x06 0x8000000000000000000000000000000000000000000000000000000000000000 1 =
      some (0, 2) ∧
    after 0x06 0 0x8000000000000000000000000000000000000000000000000000000000000000 =
      some (0, 2) := by decide

/-- R122; expected outcomes from 95_test_vectors.md V34, V36. -/
theorem test_neg_results :
    after 0x07 0x100000000000000000000000000000000 0 =
      some (0xffffffffffffffffffffffffffffffff00000000000000000000000000000000, 0) ∧
    after 0x07 0x7fffffffffffffffffffffffffffffffffffffffffffffffffffffffffffffff 0 =
      some (0x8000000000000000000000000000000000000000000000000000000000000001, 0) := by decide

/-- R122; expected outcomes from 95_test_vectors.md V37. -/
theorem test_neg_corners :
    after 0x07 0x8000000000000000000000000000000000000000000000000000000000000000 0 =
      some (0, 2) := by decide

/-- R123; expected outcomes from 95_test_vectors.md V38, V39. -/
theorem test_abs_results :
    after 0x08 0xfffffffffffffffffffffffffffffffd80000000000000000000000000000000 0 =
      some (0x280000000000000000000000000000000, 0) ∧
    after 0x08 0x8000000000000000000000000000000000000000000000000000000000000001 0 =
      some (0x7fffffffffffffffffffffffffffffffffffffffffffffffffffffffffffffff, 0) := by decide

/-- R123; expected outcomes from 95_test_vectors.md V40. -/
theorem test_abs_corners :
    after 0x08 0x8000000000000000000000000000000000000000000000000000000000000000 0 =
      some (0, 2) := by decide

/-- R124; expected outcomes from 95_test_vectors.md V43, V44, V45. -/
theorem test_ceil_results :
    after 0x09 0x500000000000000000000000000000001 0 =
      some (0x600000000000000000000000000000000, 0) ∧
    after 0x09 0xfffffffffffffffffffffffffffffffe80000000000000000000000000000000 0 =
      some (0xffffffffffffffffffffffffffffffff00000000000000000000000000000000, 0) ∧
    after 0x09 0xffffffffffffffffffffffffffffffffffffffffffffffffffffffffffffffff 0 =
      some (0, 0) := by decide

/-- R124; expected outcomes from 95_test_vectors.md V47, V48. -/
theorem test_ceil_corners :
    after 0x09 0x3fffffffffffffffffffffffffffffffffffffffffffffffffffffffffffffff 0 =
      some (0x4000000000000000000000000000000000000000000000000000000000000000, 0) ∧
    after 0x09 0x4000000000000000000000000000000000000000000000000000000000000000 0 =
      some (0, 2) := by decide

/-- R140; expected outcomes from 95_test_vectors.md V52, V53, V62, V63. -/
theorem test_mulMag_results :
    after 0x0a 0x800000000000000000000000000000000000000000000000 0x1000000000000000000000000000000000000000000000000 =
      some (0x8000000000000000000000000000000000000000000000000000000000000000, 0) ∧
    after 0x0a 0xffffffffffffffffffffffffffffffffffffffffffffffffffffffffffffffff 0x100000000000000000000000000000000 =
      some (0xffffffffffffffffffffffffffffffffffffffffffffffffffffffffffffffff, 0) ∧
    after 0x2a 0x7fffffffffffffffffffffffffffffffffffffffffffffffffffffffffffffff 0x100000000000000000000000000000001 =
      some (0x800000000000000000000000000000007ffffffffffffffffffffffffffffffe, 0) ∧
    after 0x2a 0x10000000000000000 0x10000000000000001 =
      some (2, 0) := by decide

/-- R140; expected outcomes from 95_test_vectors.md V54, V55, V57, V58. -/
theorem test_mulMag_corners :
    after 0x0a 0xffffffffffffffffffffffffffffffffffffffffffffffffffffffffffffffff 0x200000000000000000000000000000000 =
      some (0, 2) ∧
    after 0x0a 1 1 =
      some (0, 5) ∧
    after 0x2a 1 1 =
      some (0, 5) ∧
    after 0x6a 1 1 =
      some (1, 0) := by decide

/-- R141; expected outcomes from 95_test_vectors.md V65, V69, V70, V77. -/
theorem test_mul_results :
    after 0x0b 0xfffffffffffffffffffffffffffffffe80000000000000000000000000000000 0x200000000000000000000000000000000 =
      some (0xfffffffffffffffffffffffffffffffd00000000000000000000000000000000, 0) ∧
    after 0x0b 0xfffffffffffffffffffffffffffffffffffffffffffffffffffffffffffffffd 0x80000000000000000000000000000000 =
      some (0xffffffffffffffffffffffffffffffffffffffffffffffffffffffffffffffff, 0) ∧
    after 0x2b 0xfffffffffffffffffffffffffffffffffffffffffffffffffffffffffffffffd 0x80000000000000000000000000000000 =
      some (0xfffffffffffffffffffffffffffffffffffffffffffffffffffffffffffffffe, 0) ∧
    after 0x6b 1 0xffffffffffffffffffffffffffffffffffffffffffffffffffffffffffffffff =
      some (0xffffffffffffffffffffffffffffffffffffffffffffffffffffffffffffffff, 0) := by decide

/-- R141; expected outcomes from 95_test_vectors.md V66, V67, V71, V73, V75. -/
theorem test_mul_corners :
    after 0x0b 0x8000000000000000000000000000000000000000000000000000000000000000 0 =
      some (0, 0) ∧
    after 0x0b 0x8000000000000000000000000000000000000000000000000000000000000000 0x100000000000000000000000000000000 =
      some (0, 2) ∧
    after 0x0b 0xc000000000000000000000000000000000000000000000000000000000000000 0x200000000000000000000000000000000 =
      some (0, 2) ∧
    after 0x0b 0x1000000000000000000000000000000000000000000000000 0x1000000000000000000000000000000000000000000000000 =
      some (0, 2) ∧
    after 0x0b 1 0xffffffffffffffffffffffffffffffffffffffffffffffffffffffffffffffff =
      some (0, 5) := by decide

/-- R142; expected outcomes from 95_test_vectors.md V84, V87. -/
theorem test_mulInt_results :
    after 0x0c 0x8000000000000000000000000000000000000000000000000000000000000000 1 =
      some (0x8000000000000000000000000000000000000000000000000000000000000000, 0) ∧
    after 0x0c 0xfffffffffffffffffffffffffffffffe00000000000000000000000000000000 0xfffffffffffffffffffffffffffffffffffffffffffffffffffffffffffffffd =
      some (0x600000000000000000000000000000000, 0) := by decide

/-- R142; expected outcomes from 95_test_vectors.md V81, V82, V83, V86. -/
theorem test_mulInt_corners :
    after 0x0c 0 0x8000000000000000000000000000000000000000000000000000000000000000 =
      some (0, 0) ∧
    after 0x0c 0xffffffffffffffffffffffffffffffffffffffffffffffffffffffffffffffff 0x8000000000000000000000000000000000000000000000000000000000000000 =
      some (0, 2) ∧
    after 0x0c 0x8000000000000000000000000000000000000000000000000000000000000000 0xffffffffffffffffffffffffffffffffffffffffffffffffffffffffffffffff =
      some (0, 2) ∧
    after 0x0c 0x4000000000000000000000000000000000000000000000000000000000000000 2 =
      some (0, 2) := by decide

/-- R143; expected outcomes from 95_test_vectors.md V89, V93. -/
theorem test_square_results :
    after 0x0d 0xffffffffffffffffffffffffffffffff80000000000000000000000000000000 0 =
      some (0x40000000000000000000000000000000, 0) ∧
    after 0x0d 0xb504f333f9de6484597d89b3754abe9f1d6f60ba893ba84c 0 =
      some (0x7ffffffffffffffffffffffffffffffffffffffffffffffeb0b35ad29884beca, 0) := by decide

/-- R143; expected outcomes from 95_test_vectors.md V91, V94, V95. -/
theorem test_square_corners :
    after 0x0d 1 0 =
      some (0, 5) ∧
    after 0x0d 0xb504f333f9de6484597d89b3754abe9f1d6f60ba893ba84d 0 =
      some (0, 2) ∧
    after 0x0d 0x8000000000000000000000000000000000000000000000000000000000000000 0 =
      some (0, 2) := by decide

/-- R160; expected outcomes from 95_test_vectors.md V97, V110, V112. -/
theorem test_divMag_results :
    after 0x2e 0x100000000000000000000000000000000 0x300000000000000000000000000000000 =
      some (0x55555555555555555555555555555556, 0) ∧
    after 0x0e 0x800000000000000000000000000000000000000000000001 0x1ffffffffffffffff =
      some (0x4000000000000000200000000000000010000000000000000000000000000000, 0) ∧
    after 0x0e 0x600000000000000000000000000000000 0x200000000000000000000000000000000 =
      some (0x300000000000000000000000000000000, 0) := by decide +kernel

/-- R160; expected outcomes from 95_test_vectors.md V99, V102, V103, V106, V107, V108. -/
theorem test_divMag_corners :
    after 0x0e 0 0 =
      some (0, 3) ∧
    after 0x0e 0x1000000000000000000000000000000000000000000000000 1 =
      some (0, 4) ∧
    after 0x0e 0x800000000000000000000000000000000000000000000000 1 =
      some (0, 2) ∧
    after 0x2e 1 0x8000000000000000000000000000000000000000000000000000000000000000 =
      some (0, 5) ∧
    after 0x6e 1 0x8000000000000000000000000000000000000000000000000000000000000000 =
      some (1, 0) ∧
    after 0x0e 0x800000000000000000000000000000000000000000000000 0xffffffffffffffffffffffffffffffffffffffffffffffffffffffffffffffff =
      some (0, 5) := by decide +kernel

/-- R161; expected outcomes from 95_test_vectors.md V118, V119, V120. -/
theorem test_div_results :
    after 0x0f 0xfffffffffffffffffffffffffffffffd00000000000000000000000000000000 0x200000000000000000000000000000000 =
      some (0xfffffffffffffffffffffffffffffffe80000000000000000000000000000000, 0) ∧
    after 0x0f 0x100000000000000000000000000000000 0xfffffffffffffffffffffffffffffffd00000000000000000000000000000000 =
      some (0xffffffffffffffffffffffffffffffffaaaaaaaaaaaaaaaaaaaaaaaaaaaaaaab, 0) ∧
    after 0x2f 0x100000000000000000000000000000000 0xfffffffffffffffffffffffffffffffd00000000000000000000000000000000 =
      some (0xffffffffffffffffffffffffffffffffaaaaaaaaaaaaaaaaaaaaaaaaaaaaaaaa, 0) := by decide +kernel

/-- R161; expected outcomes from 95_test_vectors.md V115, V116, V122, V123, V126. -/
theorem test_div_corners :
    after 0x0f 0 0 =
      some (0, 3) ∧
    after 0x0f 0x8000000000000000000000000000000000000000000000000000000000000000 0 =
      some (0, 2) ∧
    after 0x0f 0x8000000000000000000000000000000000000000000000000000000000000000 0x200000000000000000000000000000000 =
      some (0, 2) ∧
    after 0x0f 0x4000000000000000000000000000000000000000000000000000000000000000 0x80000000000000000000000000000000 =
      some (0, 2) ∧
    after 0x0f 1 0x200000000000000000000000000000000 =
      some (0, 5) := by decide +kernel

/-- R162; expected outcomes from 95_test_vectors.md V134, V135, V137, V147. -/
theorem test_divInt_results :
    after 0x10 0xfffffffffffffffffffffffffffffffffffffffffffffffffffffffffffffff9 2 =
      some (0xfffffffffffffffffffffffffffffffffffffffffffffffffffffffffffffffd, 0) ∧
    after 0x30 0xfffffffffffffffffffffffffffffffffffffffffffffffffffffffffffffff9 2 =
      some (0xfffffffffffffffffffffffffffffffffffffffffffffffffffffffffffffffe, 0) ∧
    after 0x30 0xffffffffffffffffffffffffffffffffffffffffffffffffffffffffffffffff 2 =
      some (1, 0) ∧
    after 0x10 0x8000000000000000000000000000000000000000000000000000000000000000 0xfffffffffffffffffffffffffffffffffffffffffffffffffffffffffffffffe =
      some (0x4000000000000000000000000000000000000000000000000000000000000000, 0) := by decide

/-- R162; expected outcomes from 95_test_vectors.md V136, V138, V141, V144, V145. -/
theorem test_divInt_corners :
    after 0x10 0xffffffffffffffffffffffffffffffffffffffffffffffffffffffffffffffff 2 =
      some (0, 0) ∧
    after 0x10 1 2 =
      some (0, 5) ∧
    after 0x30 1 2 =
      some (0, 5) ∧
    after 0x10 5 0 =
      some (0, 3) ∧
    after 0x10 0x8000000000000000000000000000000000000000000000000000000000000000 0xffffffffffffffffffffffffffffffffffffffffffffffffffffffffffffffff =
      some (0, 2) := by decide

/-- R180; expected outcomes from 95_test_vectors.md V150, V157. -/
theorem test_sqrt_results :
    after 0x11 0x200000000000000000000000000000000 0 =
      some (0x16a09e667f3bcc9080000000000000000, 0) ∧
    after 0x11 0x7fffffffffffffffffffffffffffffffffffffffffffffffffffffffffffffff 0 =
      some (0xb504f333f9de6484597d89b3754abe9f0000000000000000, 0) := by decide +kernel

/-- R180; expected outcomes from 95_test_vectors.md V152, V154, V156. -/
theorem test_sqrt_corners :
    after 0x11 1 0 =
      some (0x10000000000000000, 0) ∧
    after 0x11 0 0 =
      some (0, 0) ∧
    after 0x11 0x8000000000000000000000000000000000000000000000000000000000000000 0 =
      some (0, 6) := by decide +kernel

/-- R181; expected outcomes from 95_test_vectors.md V164, V168. -/
theorem test_sqrtU_results :
    after 0x12 8 0 =
      some (2, 0) ∧
    after 0x12 0xffffffffffffffffffffffffffffffffffffffffffffffffffffffffffffffff 0 =
      some (0xffffffffffffffffffffffffffffffff, 0) := by decide +kernel

/-- R181; expected outcomes from 95_test_vectors.md V159, V170. -/
theorem test_sqrtU_corners :
    after 0x12 0 0 =
      some (0, 0) ∧
    after 0x12 0x8000000000000000000000000000000000000000000000000000000000000000 0 =
      some (0xb504f333f9de6484597d89b3754abe9f, 0) := by decide +kernel

/-- R190; expected outcomes from 95_test_vectors.md V176, V179. -/
theorem test_clz_results :
    after 0x13 0x80 0 =
      some (0xf8, 0) ∧
    after 0x13 0x100000000000000000000000000000000 0 =
      some (0x7f, 0) := by decide +kernel

/-- R190; expected outcomes from 95_test_vectors.md V172, V178. -/
theorem test_clz_corners :
    after 0x13 0 0 =
      some (0x100, 0) ∧
    after 0x13 0xffffffffffffffffffffffffffffffffffffffffffffffffffffffffffffffff 0 =
      some (0, 0) := by decide +kernel

/-- R191; expected outcomes from 95_test_vectors.md V189, V186. -/
theorem test_ctz_results :
    after 0x14 0x100000000000000000000000000000020 0 =
      some (5, 0) ∧
    after 0x14 0x8000000000000000000000000000000000000000000000000000000000000000 0 =
      some (0xff, 0) := by decide +kernel

/-- R191; expected outcomes from 95_test_vectors.md V181, V182. -/
theorem test_ctz_corners :
    after 0x14 0 0 =
      some (0x100, 0) ∧
    after 0x14 1 0 =
      some (0, 0) := by decide +kernel

/-! ### The clocked machine (95_test_vectors.md program 5) -/

/-- Edge 1: ADD is accepted, BUSY 1, RVALID 0. -/
theorem test_accept :
    (match step { State.reset with pins := [presents 0x05 (1 <<< 128) (2 <<< 128)] } with
      | .next t => decide (t.outputs = ⟨true, false, 0, 0⟩ ∧ t.cmdL = 0x05 ∧ t.bL = 2 <<< 128)
      | .fault _ => false
      | .refused _ => false) = true := by rfl

/-- Edge 3: ADD completes and the `start` at its completion edge is dropped. -/
theorem test_complete_drops_start :
    (match step { inFlight 0x05 (1 <<< 128) (2 <<< 128) with pins := [presents 0x07 (5 <<< 128) 0] } with
      | .next t => decide (t.outputs = ⟨false, true, 3 <<< 128, 0⟩ ∧ t.cmdL = 0x05)
      | .fault _ => false
      | .refused _ => false) = true := by decide

/-- Edge 5: reset abandons NEG. -/
theorem test_reset_abandons :
    (match step { inFlight 0x07 (5 <<< 128) 0 with result := 3 <<< 128, pins := [resets] } with
      | .next t => decide (t.outputs = ⟨false, false, 0, 0⟩)
      | .fault _ => false
      | .refused _ => false) = true := by decide

/-- 70_reset_and_hazards.md R222. -/
theorem test_stuck_before_reset :
    (match step { State.reset with resetDone := false } with
      | .next _ => false
      | .fault r => decide (r = .stateUnspecified)
      | .refused _ => false) = true := by decide

/-- A placed table word runs at the next step of the reset state: `CLZ 0` is 256 (95_test_vectors.md V172). -/
theorem test_placed_word :
    (match step (State.reset.withFetchWord 8 0x13) with
      | .next t => decide (t.outcome = some (256, 0))
      | .fault _ => false
      | .refused _ => false) = true := by decide +kernel

/-- 44_sqrt.md R182, by hand: from 9 the iterates are 5, 3. -/
theorem test_newton : newtonLoop 9 4 9 1 = some 3 ∧ newtonLoop 0 0 0 1 = some 0 := by decide

/-- 30_encoding.md R68, R69: `fx(1.5)`, `2^256-1`, a fraction too fine for a raw unit, a value out of range. -/
theorem test_assembly :
    AsmExpr.eval (.fx 3 1) = some (3 * 2 ^ 127) ∧
    AsmExpr.eval (.sub (.pow (.lit 2) (.lit 256)) (.lit 1)) = some (2 ^ 256 - 1) ∧
    AsmExpr.eval (.fx 1 129) = none ∧ asmWord (2 ^ 256) = none ∧
    asmOperation "LEADINGZEROS" = none ∧ asmOperation "mulMAGnitudes" = some (.mulMag .zero) ∧
    assemble 7 ⟨"MUL", true, false, [.res]⟩ = none ∧
    assemble 7 ⟨"ONE", false, false, []⟩ = some (0x15, 0, 0) := by decide

/-- Lines of 95_test_vectors.md and their words, and refused lines. -/
theorem test_assembly_text :
    assembleText 7 "ABS MIN_RAW+1" = some (0x08, BitVec.intMin 256 + 1, 0) ∧
    assembleText 7 "TOUINT fx(2.75)" = some (0x04, 0x2c0000000000000000000000000000000, 0) ∧
    assembleText 7 "MULINT -2^254, 2" = some (0x0C, BitVec.ofInt 256 (-2 ^ 254), 2) ∧
    assembleText 7 "DIVINT.RU.IDO res, 0x80" = some (0x70, 7, 0x80) ∧
    assembleText 7 "leadingZeros fx(1)+32" = some (0x13, 0x100000000000000000000000000000020, 0) ∧
    assembleText 7 "ADD fx(0.3), 1" = none ∧ assembleText 7 "MUL.IDO.RU 1, 2" = none := by decide

/-! ### States that meet the hypotheses of the statements, clause by clause -/

/-- UnusedOperandsAreIgnored. -/
theorem witness_unusedOperands :
    (Completes .clz (inFlight 0x13 0 0) (256, 0) ∧ operandCount .clz = 1) ∧
    (Completes .fixed1 (inFlight 0x15 0 0) (1 <<< 128, 0) ∧ operandCount .fixed1 = 0) :=
  ⟨⟨(completes_iff ..).2 (by decide +kernel), rfl⟩, ⟨(completes_iff ..).2 (by decide +kernel), rfl⟩⟩

/-- WordIllegalExactlyAsRuled: one word for each of the three conditions, and a legal one. -/
theorem witness_illegalWords :
    decode 0x80 = .error .reservedBit ∧ decode 0x16 = .error .reservedOp ∧ decode 0x35 = .error .flagsNotTaken ∧
      decode 0x10 = .ok (.divInt .zero) := by decide

/-- StepRunsDecodedCommand, and at the boundary `remaining = 0`. -/
theorem witness_stepRuns :
    ((inFlight 0x05 1 2).sampled.rst = false ∧ (inFlight 0x05 1 2).resetDone = true ∧
      (inFlight 0x05 1 2).busy = true ∧ (inFlight 0x05 1 2).remaining = 1 ∧
      decode (inFlight 0x05 1 2).cmdL = .ok .add) ∧
    { inFlight 0x05 1 2 with remaining := 0 }.remaining ≤ 1 := by decide

/-- PlacedWordRunsAtTheNextStep. -/
theorem witness_placedWord : decodeTableWord 8 0x6B = some (.mul ⟨true, true⟩) := by decide

/-- ResetWinsOverEverything: reset over a command in flight, then a `start`. -/
theorem witness_resetWins :
    { inFlight 0x07 1 0 with pins := [resets, presents 0x05 1 2] }.sampled.rst = true ∧
    { inFlight 0x07 1 0 with pins := [presents 0x05 1 2] }.sampled.rst = false ∧
    { inFlight 0x07 1 0 with pins := [presents 0x05 1 2] }.sampled.start = true := by decide

/-- NothingRunsBeforeTheFirstReset: both clauses. -/
theorem witness_beforeReset :
    { State.reset with resetDone := false }.resetDone = false ∧
    { State.reset with resetDone := false }.sampled.rst = false ∧
    { State.reset with resetDone := false, pins := [resets] }.sampled.rst = true := by decide

/-- AcceptanceLatchesTheCommand and StartWhileBusyIsDropped: idle with and without `start`, and busy before and
at the completion edge. -/
theorem witness_acceptance :
    (State.reset.resetDone = true ∧ State.reset.busy = false) ∧
    ((presents 0x05 1 2).rst = false ∧ (presents 0x05 1 2).start = true) ∧
    (Pins.idle.rst = false ∧ Pins.idle.start = false) ∧
    ((inFlight 0x05 1 2).busy = true ∧ (inFlight 0x05 1 2).remaining ≤ 1) ∧
    { inFlight 0x05 1 2 with remaining := 2 }.remaining > 1 := by decide

/-- AcceptedCommandCompletesAfterItsLatency and IllegalCommandCompletesWithStatusSeven: a host that waits the
latency out, for every command `c`, the illegal word 0x80 among them. -/
theorem witness_latency (c : Cmd) :
    ∃ (s : State) (waits : List Pins), s.resetDone = true ∧ s.busy = false ∧
      s.pins = presents c 1 2 :: (waits ++ []) ∧ (∀ q ∈ waits, q.rst = false) ∧
      waits.length = latency (presents c 1 2).cmd (presents c 1 2).a (presents c 1 2).b :=
  ⟨{ State.reset with pins := presents c 1 2 :: (List.replicate (latency c 1 2) .idle ++ []) },
    List.replicate (latency c 1 2) .idle, rfl, rfl, rfl,
    fun q hq => by rw [List.eq_of_mem_replicate hq]; rfl, List.length_replicate ..⟩

/-- AcceptedCommandCompletesAfterItsLatency, the edges before completion: the first is always one. -/
theorem witness_firstWait : 0 < latency 0x05 1 2 := by
  rw [latency]
  omega

/-- CommandInFlightTerminates: both values of the countdown next to the clauses' border, with nothing on the
ports; `k = 0` is below the first. -/
theorem witness_terminates :
    ((inFlight 0x05 1 2).resetDone = true ∧ (inFlight 0x05 1 2).busy = true ∧ (inFlight 0x05 1 2).pins = [] ∧
      (inFlight 0x05 1 2).remaining = 1) ∧
    { inFlight 0x05 1 2 with remaining := 0 }.remaining = 0 := by decide

/-- AssemblyLinesGiveTheirWords: a source name in another case, and a suffix the model's choice is about. -/
theorem witness_assembly :
    foldCase "MULmagnitudes" = foldCase "mulMagnitudes" ∧ (true || false) = true := by decide

/-- OutcomeIsHeldUntilAcceptanceOrReset: an idle core with an outcome steps, in each of the three clauses. -/
theorem witness_outcomeHeld (p : Pins) :
    ∃ s t : State, s.busy = false ∧ s.rvalid = true ∧ s.sampled = p ∧ step s = .next t := by
  refine ⟨{ State.reset with rvalid := true, pins := [p] }, ?_⟩
  rcases p with ⟨_ | _, _ | _, c, a, b⟩ <;> exact ⟨_, rfl, rfl, rfl, rfl⟩

/-- EveryStepKeepsTheInvariant: the invariant holds of a command in flight, which steps. -/
theorem witness_invariant : Inv (inFlight 0x05 1 2) ∧ ∃ t, step (inFlight 0x05 1 2) = .next t :=
  ⟨⟨by decide, by decide, by decide⟩, _, step_of_completion (by decide)⟩

/-- EdgesRefineTransactions. -/
theorem witness_refines : ∃ t, step (inFlight 0x05 1 2) = .next t := ⟨_, step_of_completion (by decide)⟩

/-- TransactionsAreRealisedByEdges: each of the three steps is enabled somewhere. -/
theorem witness_transactions :
    (∃ t, (txn State.reset).Accept 0x05 1 2 t) ∧ (∃ t, (txn (inFlight 0x05 1 2)).Complete t) ∧
      (txn State.reset).Reset :=
  ⟨⟨_, rfl, rfl⟩, ⟨_, rfl, rfl⟩, rfl, rfl, rfl, rfl⟩

/-- HiddenStateNeverReachesThePorts: an idle core with other words in its latches. -/
theorem witness_sameToHost : SameToHost State.reset { State.reset with cmdL := 5, aL := 1, remaining := 9 } :=
  ⟨rfl, rfl, rfl, by decide⟩

/-- ErrorsLeaveResultZero. -/
theorem witness_error : (execute 0x80 1 2).2 ≠ 0 ∧ (execute 0x0F 1 0).2 ≠ 0 := by decide

/-- ReturnedValuesFitTheirWord: a signed and an unsigned result at the ends of their ranges. -/
theorem witness_returned :
    (answer .fromInt (BitVec.ofInt 256 (-2 ^ 127)) 0 = .ok (-2 ^ 255) ∧ unsignedResult .fromInt = false) ∧
    (answer (.mulMag .zero) (-1) (1 <<< 128) = .ok (2 ^ 256 - 1) ∧ unsignedResult (.mulMag .zero) = true) := by
  decide

/-- MulRoundsItsMagnitude: an inexact product without and with `ROUND_UP` (95_test_vectors.md V69, V70). -/
theorem witness_rounding :
    execute (flagWord 0x0B ⟨false, false⟩) (-3) (1 <<< 127) = (-1, 0) ∧
    execute (flagWord 0x0B ⟨true, false⟩) (-3) (1 <<< 127) = (-2, 0) := by decide

/-- ConversionRoundTrips: the integers at both ends, and a value without fraction. -/
theorem witness_conversion :
    (-2 ^ 127 ≤ (BitVec.ofInt 256 (-2 ^ 127)).toInt ∧ (BitVec.ofInt 256 (2 ^ 127 - 1)).toInt ≤ 2 ^ 127 - 1) ∧
    (BitVec.extractLsb' 0 128 (5 <<< 128 : Word)) = 0 := by decide

/-- SubIsExactOrOverflow: an `ADD` that succeeds at the top of the range. -/
theorem witness_addThenSub :
    execute 0x05 (BitVec.intMax 256) 0 = (BitVec.intMax 256, 0) := by decide

/-- AbsIsNonnegativeOrOverflow and CeilIsTheNextWholeUnit: operands next to and at the error. -/
theorem witness_abs_ceil :
    (BitVec.intMin 256 + 1 ≠ BitVec.intMin 256) ∧ (BitVec.ofInt 256 (2 ^ 254 - 1)).toInt < 2 ^ 254 ∧
      2 ^ 254 ≤ (BitVec.ofInt 256 (2 ^ 254)).toInt := by decide

/-- MulMagIsTheProductWindow, MulIsSignedMulMag, DivIsSignedDivMag: the named word is there for every state. -/
theorem witness_named (s : State) (f : RoundingFlags) :
    (∃ p : BitVec 512, p = s.aL.zeroExtend 512 * s.bL.zeroExtend 512) ∧
    (∃ m : Word × StatusCode, m = execute (flagWord 0x0A f) (if s.aL.msb then -s.aL else s.aL)
      (if s.bL.msb then -s.bL else s.bL)) := ⟨⟨_, rfl⟩, ⟨_, rfl⟩⟩

/-- DivMagHasItsClosedForm: the full budget at its boundary, `p = 128`, and one below. -/
theorem witness_budget :
    clz256 (2 ^ 127) + ctz256 1 = 128 ∧ clz256 (2 ^ 128) + ctz256 1 = 127 ∧
      clz256 (2 ^ 191) + ctz256 1 = 64 ∧ clz256 (2 ^ 192) + ctz256 1 = 63 := by decide +kernel

/-- MulIntIsExactOrOverflow: a nonzero operand at the source's edge case. -/
theorem witness_mulInt : (-1 : Word) ≠ 0 ∧ (-1 : Word).toInt = -1 := by decide

/-- SqrtIsTheShiftedRoot: a square that does not overflow (95_test_vectors.md P6). -/
theorem witness_sqrt :
    execute 0x0B 0x55555555555555555555555555555555 0x55555555555555555555555555555555 =
      (0x1c71c71c71c71c71c71c71c71c71c71c, 0) := by decide

/-- NewtonLoopIsTheRootOfSqrtU: the loop ends within its fuel. -/
theorem witness_newton : newtonLoop (2 : Word).toNat 3 (2 : Word).toNat 1 = some 1 := by decide

end Sys2Proof.Tests
end

section
/-! PROOFS. O27: the value an operation returns fits its result word (spec/00_scope.md R10, R13). First what it
means that every value an answer can return has a property, then one range lemma per operation. -/

namespace Sys2Proof.Proofs

open Sys2Proof.Machine Sys2Proof.Safety Sys2Proof.Laws

/-! ### What an answer can return -/

/-- Every value that `x` can return has the property `P`; an error returns none. -/
def Returns {α : Type} (P : α → Prop) (x : Except ErrKind α) : Prop := ∀ v, x = .ok v → P v

@[simp] theorem returns_ok {α : Type} {P : α → Prop} {v : α} : Returns P (.ok v) ↔ P v := by
  simp [Returns]

@[simp] theorem returns_error {α : Type} {P : α → Prop} {k : ErrKind} : Returns P (.error k) := by
  simp [Returns]

@[simp] theorem returns_map {α β : Type} {P : β → Prop} {g : α → β} {x : Except ErrKind α} :
    Returns P (x.map g) ↔ Returns (fun v => P (g v)) x := by
  cases x <;> simp [Except.map]

/-- A test that raises an error leaves the values returned when it does not fire. -/
@[simp] theorem returns_guard {α : Type} {P : α → Prop} {c : Prop} [Decidable c] {k : ErrKind}
    {x : Except ErrKind α} : Returns P (if c then .error k else x) ↔ (¬c → Returns P x) := by
  split <;> simp [*]

theorem returns_ite {α : Type} {P : α → Prop} {c : Prop} [Decidable c] {x y : Except ErrKind α}
    (hx : Returns P x) (hy : Returns P y) : Returns P (if c then x else y) := by
  split
  · exact hx
  · exact hy

/-! ### The two ranges -/

/-- The values a result word holds without wrapping, by the result column of 30_encoding.md R63. -/
def FitsWord (unsigned : Bool) (v : Int) : Prop :=
  if unsigned then 0 ≤ v ∧ v ≤ 2 ^ 256 - 1 else -2 ^ 255 ≤ v ∧ v ≤ 2 ^ 255 - 1

@[simp] theorem fitsWord_signed {v : Int} : FitsWord false v ↔ -2 ^ 255 ≤ v ∧ v ≤ 2 ^ 255 - 1 := by
  simp [FitsWord]

@[simp] theorem fitsWord_unsigned {v : Int} : FitsWord true v ↔ 0 ≤ v ∧ v ≤ 2 ^ 256 - 1 := by
  simp [FitsWord]

theorem fitsWord_s256 (w : Word) : FitsWord false (s256 w) := fitsWord_signed.mpr ⟨s256_ge w, s256_le w⟩

/-! ### Converter -/

theorem fromIntOp_fits (x : Int) : Returns (FitsWord false) (fromIntOp x) := by
  simp only [fromIntOp, shiftLeftInt, INT_MIN, INT_MAX, returns_guard, returns_ok, fitsWord_signed]
  omega

theorem toIntOp_fits (w : Word) : Returns (FitsWord false) (toIntOp (s256 w)) := by
  have hw := fitsWord_signed.mp (fitsWord_s256 w)
  simp only [toIntOp, shiftRightInt_eq_div, returns_ok, fitsWord_signed]
  omega

theorem fromUIntOp_fits (x : Nat) : Returns (FitsWord false) (fromUIntOp x) := by
  simp only [fromUIntOp, shiftLeftInt, INT_MAX, returns_guard, returns_ok, fitsWord_signed]
  omega

theorem toUIntOp_fits (w : Word) : Returns (FitsWord true) (toUIntOp (s256 w)) := by
  have hw := fitsWord_signed.mp (fitsWord_s256 w)
  simp only [toUIntOp, shiftRightInt_eq_div, returns_guard, returns_ok, fitsWord_unsigned]
  omega

theorem fixed1Op_fits : Returns (FitsWord false) fixed1Op := by
  simp [fixed1Op, FIXED_ONE]

/-! ### Adder, negator, ceiling -/

theorem signedOrOverflow_fits (r : Int) : Returns (FitsWord false) (signedOrOverflow r) := by
  obtain ⟨h, hge, hle⟩ | ⟨h, -⟩ := signedOrOverflow_cases r
  · rw [h, returns_ok, fitsWord_signed]
    exact ⟨hge, hle⟩
  · rw [h]
    exact returns_error

theorem negOp_fits (w : Word) : Returns (FitsWord false) (negOp (s256 w)) := by
  have hw := fitsWord_signed.mp (fitsWord_s256 w)
  simp only [negOp, MIN_RAW, returns_guard, returns_ok, fitsWord_signed]
  omega

theorem absOp_fits (w : Word) : Returns (FitsWord false) (absOp (s256 w)) := by
  have hw := fitsWord_signed.mp (fitsWord_s256 w)
  simp only [absOp, MIN_RAW, returns_guard, returns_ok, fitsWord_signed]
  omega

theorem ceilOp_fits (w : Word) : Returns (FitsWord false) (ceilOp (s256 w)) := by
  have hw := fitsWord_signed.mp (fitsWord_s256 w)
  simp only [ceilOp, CEIL_LIMIT, MASK, shiftLeftInt, shiftRightInt_eq_div, returns_guard, returns_ok,
    fitsWord_signed]
  omega

/-! ### Magnitudes and their signs -/

/-- `ROUND_UP` stops at `MAX_RAW`, so it never carries a magnitude out of its word. -/
theorem roundUpMag_lt {f : RoundingFlags} {inexact : Bool} {r : Nat} (h : r < 2 ^ 256) :
    roundUpMag f inexact r < 2 ^ 256 := by
  obtain e | ⟨e, hr⟩ := roundUpMag_cases f inexact r
  · rwa [e]
  · rw [e]
    simp only [MAX_RAW] at hr
    omega

theorem mulMagOp_lt (x y : Nat) (f : RoundingFlags) : Returns (· < 2 ^ 256) (mulMagOp x y f) := by
  obtain ⟨h, -⟩ | ⟨h, -⟩ | ⟨h, hr⟩ := mulMagOp_cases x y f
  · exact h ▸ returns_error
  · exact h ▸ returns_error
  · exact h ▸ returns_ok.mpr (roundUpMag_lt hr)

/-- With a full precision budget the re-scaled quotient is the exact truncated one, which fits a word. -/
theorem rescale_lt_of_budget {x y : Nat} (hx : 0 < x) (hx2 : x < 2 ^ 256) (hy : 0 < y) (hy2 : y < 2 ^ 256)
    (hp : 128 ≤ clz256 x + ctz256 y) :
    rescale ((x <<< clz256 x) / (y >>> ctz256 y)) (clz256 x + ctz256 y) < 2 ^ 256 := by
  rw [rescale_quotient hx hx2 hy hy2, Nat.min_eq_right hp, Nat.sub_self, pow_zero, mul_one]
  exact quotient_lt_of_budget hx hx2 hy hy2 hp

theorem divMagOp_lt {x y : Nat} (f : RoundingFlags) (hx : x < 2 ^ 256) (hy : y < 2 ^ 256) :
    Returns (· < 2 ^ 256) (divMagOp x y f) := by
  obtain ⟨-, h⟩ | ⟨-, -, h⟩ | ⟨-, -, -, h⟩ | ⟨hy0, hx0, -, r, hr, hcase⟩ := divMagOp_cases x y f
  · exact h ▸ returns_error
  · exact h ▸ returns_ok.mpr (by norm_num)
  · exact h ▸ returns_error
  · obtain ⟨-, -, h⟩ | ⟨-, -, h⟩ | ⟨hfit, -, h⟩ := hcase
    · exact h ▸ returns_error
    · exact h ▸ returns_error
    · refine h ▸ returns_ok.mpr (roundUpMag_lt ?_)
      obtain hp | hlt := hfit
      · exact hr ▸ rescale_lt_of_budget (by omega) hx (by omega) hy hp
      · exact hlt

/-- A magnitude below `2^256`, written as the result of MULMAG or DIVMAG. -/
theorem fits_of_magnitude_lt {mag : Except ErrKind Nat} (h : Returns (· < 2 ^ 256) mag) :
    Returns (FitsWord true) (mag.map Int.ofNat) := by
  rw [returns_map]
  intro r hr
  have hlt := h r hr
  rw [fitsWord_unsigned, Int.ofNat_eq_natCast]
  omega

/-- The top-bit test leaves a magnitude that either sign can be given to. -/
theorem reattachSign_fits (a b : Int) (mag : Except ErrKind Nat) :
    Returns (FitsWord false) (reattachSign a b mag) := by
  obtain ⟨k, -, h⟩ | ⟨r, -, -, h⟩ | ⟨r, -, hr, h⟩ := reattachSign_cases a b mag
  · exact h ▸ returns_error
  · exact h ▸ returns_error
  · rw [h, returns_ok, fitsWord_signed]
    split <;> omega

/-! ### Multiplier and divider -/

theorem mulOp_fits (a b : Int) (f : RoundingFlags) : Returns (FitsWord false) (mulOp a b f) := by
  refine returns_ite (by simp) ?_
  simp [reattachSign_fits]

theorem mulIntOp_fits (x y : Int) : Returns (FitsWord false) (mulIntOp x y) :=
  returns_ite (by simp) (signedOrOverflow_fits _)

theorem divOp_fits (a b : Int) (f : RoundingFlags) : Returns (FitsWord false) (divOp a b f) := by
  simp [divOp, reattachSign_fits]

/-- But for `MIN_RAW / -1`, the truncated quotient of two signed words is a signed word's value. -/
theorem tdiv_fits {a b : Word} (h : ¬(s256 a = MIN_RAW ∧ s256 b = -1)) :
    FitsWord false (tdiv (s256 a) (s256 b)) := by
  have hne : a ≠ BitVec.intMin 256 ∨ b ≠ -1#256 := by
    rw [← not_and_or, eq_intMin_iff, ← BitVec.toInt_inj]
    exact h
  have hq : s256 (a.sdiv b) = tdiv (s256 a) (s256 b) := BitVec.toInt_sdiv_of_ne_or_ne a b hne
  exact hq ▸ fitsWord_s256 (a.sdiv b)

theorem roundUpInt_fits {f : RoundingFlags} {inexact : Bool} {q : Int} (h : FitsWord false q) :
    FitsWord false (roundUpInt f inexact q) := by
  obtain e | ⟨e, hq⟩ := roundUpInt_cases f inexact q
  · rwa [e]
  · simp only [MAX_RAW, fitsWord_signed] at *
    omega

theorem divIntOp_fits (a b : Word) (f : RoundingFlags) :
    Returns (FitsWord false) (divIntOp (s256 a) (s256 b) f) := by
  simp only [divIntOp, returns_guard, returns_ok]
  intro _ hne _
  exact roundUpInt_fits (tdiv_fits hne)

/-! ### Square roots and bit counts -/

theorem sqrtOp_fits (w : Word) : Returns (FitsWord false) (sqrtOp (s256 w)) := by
  have hw := fitsWord_signed.mp (fitsWord_s256 w)
  have hroot := isqrt_lt (s256 w).toNat (by omega)
  simp only [sqrtOp, shiftLeftInt, returns_guard, returns_ok, fitsWord_signed]
  omega

theorem sqrtUOp_fits (w : Word) : Returns (FitsWord true) (sqrtUOp (u256 w)) := by
  have hroot := isqrt_lt (u256 w) (u256_lt w)
  simp only [sqrtUOp, returns_ok, fitsWord_unsigned]
  omega

theorem clzOp_fits (n : Nat) : Returns (FitsWord true) (clzOp n) := by
  have hle := clz256_le n
  simp only [clzOp, returns_ok, fitsWord_unsigned]
  omega

theorem ctzOp_fits (n : Nat) : Returns (FitsWord true) (ctzOp n) := by
  have hle := ctz256_le n
  simp only [ctzOp, returns_ok, fitsWord_unsigned]
  omega

/-! ### All operations -/

theorem answer_fits (i : Instr) (a b : Word) : Returns (FitsWord (unsignedResult i)) (answer i a b) := by
  cases i with
  | fromInt => exact fromIntOp_fits _
  | toInt => exact toIntOp_fits _
  | fromUInt => exact fromUIntOp_fits _
  | toUInt => exact toUIntOp_fits _
  | add => exact signedOrOverflow_fits _
  | sub => exact signedOrOverflow_fits _
  | neg => exact negOp_fits _
  | abs => exact absOp_fits _
  | ceil => exact ceilOp_fits _
  | mulMag f => exact fits_of_magnitude_lt (mulMagOp_lt _ _ f)
  | mul f => exact mulOp_fits _ _ f
  | mulInt => exact mulIntOp_fits _ _
  | square => exact mulOp_fits _ _ .zero
  | divMag f => exact fits_of_magnitude_lt (divMagOp_lt f (u256_lt a) (u256_lt b))
  | div f => exact divOp_fits _ _ f
  | divInt f => exact divIntOp_fits a b f
  | sqrt => exact sqrtOp_fits _
  | sqrtU => exact sqrtUOp_fits _
  | clz => exact clzOp_fits _
  | ctz => exact ctzOp_fits _
  | fixed1 => exact fixed1Op_fits

/-- Settles O27: each operation's value is in the range of its result column. -/
theorem returnedValuesFitTheirWord : Obligations.ReturnedValuesFitTheirWord := answer_fits

end Sys2Proof.Proofs
end

section
/-! PROOFS. O28: MUL truncates or rounds its magnitude and has the sign of the exact product
(spec/00_scope.md R14; spec/42_multiply.md R140, R141). -/

namespace Sys2Proof.Proofs

open Sys2Proof.Machine Sys2Proof.Safety Sys2Proof.Laws

/-! ### From the words of a command to the value of its operation -/

/-- A command completes with `OK` exactly when its operation returns a value, which RESULT is written from. -/
theorem outcomeOf_eq_ok_iff {ans : Answer} {r : Word} :
    outcomeOf ans = (r, 0) ↔ ∃ v, ans = .ok v ∧ bits256 v = r := by
  cases ans with
  | ok v => simp [outcomeOf, statusOk]
  | error k =>
    refine ⟨fun h => absurd (congrArg Prod.snd h) (code_ne_zero k), ?_⟩
    rintro ⟨v, hv, -⟩
    cases hv

theorem execute_of_decode {c : Cmd} {i : Instr} (h : decode c = .ok i) (a b : Word) :
    execute c a b = outcomeOf (answer i a b) := by
  simp only [execute, h]

theorem decode_flagWord_mul (f : RoundingFlags) : decode (flagWord 0x0B f) = .ok (.mul f) := by
  rcases f with ⟨_ | _, _ | _⟩ <;> rfl

/-- A successful MUL leaves in RESULT, read signed, the value that `mulOp` returns. -/
theorem mulOp_of_execute {a b r : Word} {f : RoundingFlags} (h : execute (flagWord 0x0B f) a b = (r, 0)) :
    mulOp (s256 a) (s256 b) f = .ok (s256 r) := by
  rw [execute_of_decode (decode_flagWord_mul f), outcomeOf_eq_ok_iff] at h
  obtain ⟨v, hv, rfl⟩ := h
  obtain ⟨hge, hle⟩ := fitsWord_signed.mp (mulOp_fits _ _ f v hv)
  rw [s256_bits256 hge hle]
  exact hv

/-! ### What MUL returns -/

/-- What MUL returns: 0 on a zero operand, else MULMAG's magnitude with the combined sign. -/
theorem mulOp_ok_cases {a b v : Int} {f : RoundingFlags} (h : mulOp a b f = .ok v) :
    (a * b = 0 ∧ v = 0) ∨
      ∃ m : Nat, mulMagOp a.natAbs b.natAbs f = .ok m ∧
        v = if decide (a < 0) != decide (b < 0) then -(m : Int) else m := by
  unfold mulOp at h
  split at h
  · next h0 =>
    cases h
    exact .inl ⟨mul_eq_zero.mpr h0, rfl⟩
  split at h
  · cases h
  split at h
  · cases h
  obtain ⟨k, -, e⟩ | ⟨m, -, -, e⟩ | ⟨m, hm, -, e⟩ := reattachSign_cases a b (mulMagOp a.natAbs b.natAbs f)
  · cases e.symm.trans h
  · cases e.symm.trans h
  · cases e.symm.trans h
    exact .inr ⟨m, hm, rfl⟩

/-- The combined sign of the operands is the sign of their product. -/
theorem combinedSign_mul_nonneg (a b : Int) (m : Nat) :
    0 ≤ (if decide (a < 0) != decide (b < 0) then -(m : Int) else m) * (a * b) := by
  have hm : (0 : Int) ≤ m := Int.natCast_nonneg m
  rcases lt_or_ge a 0 with ha | ha <;> rcases lt_or_ge b 0 with hb | hb
  · simpa [ha, hb] using mul_nonneg hm (mul_nonneg_of_nonpos_of_nonpos ha.le hb.le)
  · simpa [ha, hb.not_gt] using mul_nonpos_of_nonneg_of_nonpos hm (mul_nonpos_of_nonpos_of_nonneg ha.le hb)
  · simpa [ha.not_gt, hb] using mul_nonpos_of_nonneg_of_nonpos hm (mul_nonpos_of_nonneg_of_nonpos ha hb.le)
  · simpa [ha.not_gt, hb.not_gt] using mul_nonneg hm (mul_nonneg ha hb)

theorem mulOp_sign {a b v : Int} {f : RoundingFlags} (h : mulOp a b f = .ok v) : 0 ≤ v * (a * b) := by
  obtain ⟨-, rfl⟩ | ⟨m, -, rfl⟩ := mulOp_ok_cases h
  · rw [zero_mul]
  · exact combinedSign_mul_nonneg a b m

theorem roundUpMag_exact (f : RoundingFlags) (r : Nat) : roundUpMag f false r = r := by
  simp [roundUpMag]

/-- The magnitude of MUL is the top of the exact product's, rounded by the bits below (42_multiply.md R140). -/
theorem mulOp_natAbs {a b v : Int} {f : RoundingFlags} (h : mulOp a b f = .ok v) :
    v.natAbs = roundUpMag f ((a * b).natAbs % 2 ^ 128 != 0) ((a * b).natAbs / 2 ^ 128) := by
  obtain ⟨h0, rfl⟩ | ⟨m, hm, rfl⟩ := mulOp_ok_cases h
  · rw [h0]
    exact (roundUpMag_exact f 0).symm
  · obtain ⟨e, -⟩ | ⟨e, -⟩ | ⟨e, -⟩ := mulMagOp_cases a.natAbs b.natAbs f
    · cases e.symm.trans hm
    · cases e.symm.trans hm
    · cases e.symm.trans hm
      rw [Int.natAbs_mul]
      split <;> simp only [Int.natAbs_neg, Int.natAbs_natCast]

/-! ### The rounding of a magnitude -/

/-- Without `ROUND_UP` a scaled magnitude is the floor of the exact one. -/
theorem roundUpMag_floor {f : RoundingFlags} (hf : f.ru = false) (p : Nat) :
    roundUpMag f (p % 2 ^ 128 != 0) (p / 2 ^ 128) * 2 ^ 128 ≤ p ∧
      p < (roundUpMag f (p % 2 ^ 128 != 0) (p / 2 ^ 128) + 1) * 2 ^ 128 := by
  have e : roundUpMag f (p % 2 ^ 128 != 0) (p / 2 ^ 128) = p / 2 ^ 128 := by simp [roundUpMag, hf]
  rw [e]
  omega

/-- With `ROUND_UP` a scaled magnitude below `MAX_RAW` is the ceiling of the exact one. -/
theorem roundUpMag_ceiling {f : RoundingFlags} (hf : f.ru = true) {p : Nat}
    (h : roundUpMag f (p % 2 ^ 128 != 0) (p / 2 ^ 128) < 2 ^ 255 - 1) :
    p ≤ roundUpMag f (p % 2 ^ 128 != 0) (p / 2 ^ 128) * 2 ^ 128 ∧
      roundUpMag f (p % 2 ^ 128 != 0) (p / 2 ^ 128) * 2 ^ 128 < p + 2 ^ 128 := by
  revert h
  simp only [roundUpMag, hf, true_and, bne_iff_ne, MAX_RAW]
  split <;> omega

/-- Settles O28: the sign is that of the exact product, and the magnitude is its floor, or its ceiling under
`ROUND_UP`. -/
theorem mulRoundsItsMagnitude : Obligations.MulRoundsItsMagnitude := by
  intro a b r f h
  have hmul := mulOp_of_execute h
  refine ⟨mulOp_sign hmul, fun hf => ?_, fun hf hlt => ?_⟩
  · rw [mulOp_natAbs hmul]
    exact roundUpMag_floor hf _
  · rw [mulOp_natAbs hmul] at hlt ⊢
    exact roundUpMag_ceiling hf hlt

end Sys2Proof.Proofs
end

section
/-! PROOFS. The clocked machine one rising edge at a time (spec/10_state.md R25 to R27;
spec/70_reset_and_hazards.md R220, R224): which edge comes next, what it keeps, and the transaction it makes
(spec/10_state.md R30). -/

namespace Sys2Proof.Proofs

open Sys2Proof.Machine Sys2Proof.Safety Sys2Proof.Laws

/-! ### Which edge comes next -/

theorem edge_eq_reset_iff {s : State} : s.edge = .reset ↔ s.sampled.rst = true :=
  ⟨fun h => by simpa [h] using edge_spec s, fun h => by simp [State.edge, h]⟩

theorem edge_eq_completion_iff {s : State} : s.edge = .completion ↔
    s.sampled.rst = false ∧ s.resetDone = true ∧ s.busy = true ∧ s.remaining ≤ 1 := by
  refine ⟨fun h => by simpa [h] using edge_spec s, fun ⟨hrst, hdone, hbusy, hrem⟩ => ?_⟩
  simp [State.edge, hrst, hdone, hbusy, hrem]

theorem edge_eq_working_iff {s : State} : s.edge = .working ↔
    s.sampled.rst = false ∧ s.resetDone = true ∧ s.busy = true ∧ 2 ≤ s.remaining := by
  refine ⟨fun h => by simpa [h] using edge_spec s, fun ⟨hrst, hdone, hbusy, hrem⟩ => ?_⟩
  simp [State.edge, hrst, hdone, hbusy, Nat.not_le.mpr hrem]

theorem edge_eq_acceptance_iff {s : State} : s.edge = .acceptance ↔
    s.sampled.rst = false ∧ s.resetDone = true ∧ s.busy = false ∧ s.sampled.start = true := by
  refine ⟨fun h => by simpa [h] using edge_spec s, fun ⟨hrst, hdone, hbusy, hstart⟩ => ?_⟩
  simp [State.edge, hrst, hdone, hbusy, hstart]

theorem edge_eq_idle_iff {s : State} : s.edge = .idle ↔
    s.sampled.rst = false ∧ s.resetDone = true ∧ s.busy = false ∧ s.sampled.start = false := by
  refine ⟨fun h => by simpa [h] using edge_spec s, fun ⟨hrst, hdone, hbusy, hstart⟩ => ?_⟩
  simp [State.edge, hrst, hdone, hbusy, hstart]

theorem sampled_of_pins {s : State} {p : Pins} {rest : List Pins} (h : s.pins = p :: rest) : s.sampled = p := by
  rw [State.sampled, h]

theorem advancePins_of_pins {s : State} {p : Pins} {rest : List Pins} (h : s.pins = p :: rest) :
    s.advancePins = { s with pins := rest } := by
  rw [State.advancePins, h, List.tail_cons]

/-! ### The invariant -/

theorem inv_applyReset (s : State) : Inv s.applyReset := ⟨by simp, by simp, by simp⟩

/-- A completion leaves an outcome, and it is `Execute` of the latched words. -/
theorem inv_complete (s : State) :
    Inv (s.complete (execute s.cmdL s.aL s.bL).1 (execute s.cmdL s.aL s.bL).2) :=
  ⟨by simp, by simp, by simp⟩

/-- The countdown stays above 0, because the edge at which it stands at 1 completes. -/
theorem inv_work {s : State} (hs : Inv s) (hbusy : s.busy = true) (hrem : 2 ≤ s.remaining) : Inv s.work := by
  have hnone := (hs.inFlight hbusy).1
  exact ⟨fun _ => ⟨hnone, Nat.le_sub_one_of_lt hrem⟩, by simp [hnone], by simp [hbusy]⟩

theorem one_le_latency (c : Cmd) (a b : Word) : 1 ≤ latency c a b := Nat.le_add_right 1 _

theorem inv_accept (s : State) (c : Cmd) (a b : Word) : Inv (s.accept c a b) :=
  ⟨fun _ => ⟨rfl, one_le_latency c a b⟩, by simp, by simp⟩

/-- The invariant does not speak of the host. -/
theorem inv_advancePins {s : State} (hs : Inv s) : Inv s.advancePins :=
  ⟨hs.inFlight, hs.outcomeHeld, hs.idleAfterReset⟩

/-- Settles O19: each kind of edge leaves a state that meets the invariant. -/
theorem everyStepKeepsTheInvariant : Obligations.EveryStepKeepsTheInvariant := by
  intro s t hs h
  obtain ⟨-, rfl⟩ | ⟨-, rfl⟩ | ⟨he, rfl⟩ | ⟨-, rfl⟩ | ⟨-, rfl⟩ := step_cases h
  · exact inv_applyReset _
  · exact inv_complete s.advancePins
  · obtain ⟨-, -, hbusy, hrem⟩ := edge_eq_working_iff.mp he
    exact inv_work (inv_advancePins hs) hbusy hrem
  · exact inv_accept _ _ _ _
  · exact inv_advancePins hs

/-- Settles O18: after reset nothing is in flight, there is no outcome, and RESULT and STATUS are 0. -/
theorem invariantHoldsAtReset : Obligations.InvariantHoldsAtReset := inv_applyReset State.reset

/-! ### Acceptance, completion and the outcome -/

/-- An idle core accepts the command on its ports. -/
theorem step_of_presented {s : State} {p : Pins} {rest : List Pins} (hpins : s.pins = p :: rest)
    (hdone : s.resetDone = true) (hbusy : s.busy = false) (hrst : p.rst = false) (hstart : p.start = true) :
    step s = .next (State.accept { s with pins := rest } p.cmd p.a p.b) := by
  have hsampled := sampled_of_pins hpins
  have he : s.edge = .acceptance :=
    edge_eq_acceptance_iff.mpr ⟨hsampled ▸ hrst, hdone, hbusy, hsampled ▸ hstart⟩
  rw [step_of_acceptance he, State.acceptSampled, hsampled, advancePins_of_pins hpins]

/-- The edge of a busy core without reset, in which the ports have no part. -/
theorem step_of_busy {s : State} (hrst : s.sampled.rst = false) (hdone : s.resetDone = true)
    (hbusy : s.busy = true) : step s = .next (if s.remaining ≤ 1
      then s.advancePins.complete (execute s.cmdL s.aL s.bL).1 (execute s.cmdL s.aL s.bL).2
      else s.advancePins.work) := by
  split
  · next hrem => exact step_of_completion (edge_eq_completion_iff.mpr ⟨hrst, hdone, hbusy, hrem⟩)
  · next hrem => exact step_of_working (edge_eq_working_iff.mpr ⟨hrst, hdone, hbusy, Nat.not_le.mp hrem⟩)

/-- Settles O12: an idle core latches a presented command or stays as it is; the edge of a busy core is the same
on all ports without reset. -/
theorem acceptanceLatchesTheCommand : Obligations.AcceptanceLatchesTheCommand := by
  intro s p rest hpins hdone hrst
  have hsampled := sampled_of_pins hpins
  refine ⟨fun hbusy hstart => ?_, fun hbusy hstart => ?_, fun hbusy q hq => ?_⟩
  · exact ⟨_, step_of_presented hpins hdone hbusy hrst hstart⟩
  · have he : s.edge = .idle := edge_eq_idle_iff.mpr ⟨hsampled ▸ hrst, hdone, hbusy, hsampled ▸ hstart⟩
    rw [step_of_idle he, advancePins_of_pins hpins]
  · rw [step_of_busy (s := s) (hsampled ▸ hrst) hdone hbusy, advancePins_of_pins hpins]
    exact step_of_busy hq hdone hbusy

/-- A completion edge runs the instruction that the latched word decodes to. -/
theorem step_eq_exec {s : State} {i : Instr} (he : s.edge = .completion) (hi : decode s.cmdL = .ok i) :
    step s = exec i s.advancePins := by
  simp only [step, he, hi]

/-- The host that `withFetchWord` leaves does not assert reset at the next edge. -/
theorem withFetchWord_edge (s : State) (nbits w : Nat) : (s.withFetchWord nbits w).edge = .completion := by
  refine edge_eq_completion_iff.mpr ⟨?_, rfl, rfl, le_rfl⟩
  cases h : s.pins <;> simp [State.withFetchWord, State.sampled, Pins.idle, h]

theorem withFetchWord_advancePins (s : State) (nbits w : Nat) :
    (s.withFetchWord nbits w).advancePins = { s with
      cmdL := BitVec.ofNat 8 (w % 2 ^ nbits)
      busy := true
      rvalid := false
      remaining := 1
      resetDone := true
      pins := s.pins.tail } := by
  cases h : s.pins <;> simp [State.withFetchWord, State.advancePins, h]

theorem decode_of_decodeTableWord {nbits w : Nat} {i : Instr} (h : decodeTableWord nbits w = some i) :
    decode (BitVec.ofNat 8 (w % 2 ^ nbits)) = .ok i := by
  rw [decodeTableWord] at h
  cases hd : decode (BitVec.ofNat 8 (w % 2 ^ nbits)) with
  | ok j => rw [hd] at h; exact congrArg _ (Option.some.inj h)
  | error r => rw [hd] at h; cases h

/-- Settles O8: the placed word's completion edge is the next one. -/
theorem placedWordRunsAtTheNextStep : Obligations.PlacedWordRunsAtTheNextStep := by
  intro s nbits w i hw
  rw [step_eq_exec (withFetchWord_edge s nbits w) (decode_of_decodeTableWord hw), withFetchWord_advancePins]

theorem outcome_eq_none {s : State} (h : s.rvalid = false) : s.outcome = none := by
  rw [State.outcome, h]

/-- Settles O17: an idle edge keeps RVALID, RESULT and STATUS; acceptance and reset clear RVALID. -/
theorem outcomeIsHeldUntilAcceptanceOrReset : Obligations.OutcomeIsHeldUntilAcceptanceOrReset := by
  intro s t hbusy h
  obtain ⟨he, rfl⟩ | ⟨he, rfl⟩ | ⟨he, rfl⟩ | ⟨he, rfl⟩ | ⟨he, rfl⟩ := step_cases h
  · have hrst := edge_eq_reset_iff.mp he
    simp [hrst, outcome_eq_none (applyReset_rvalid _)]
  · simp [edge_eq_completion_iff, hbusy] at he
  · simp [edge_eq_working_iff, hbusy] at he
  · obtain ⟨hrst, -, -, hstart⟩ := edge_eq_acceptance_iff.mp he
    simp [hrst, hstart, State.acceptSampled, outcome_eq_none (accept_rvalid ..)]
  · obtain ⟨hrst, -, -, hstart⟩ := edge_eq_idle_iff.mp he
    simp [hrst, hstart, State.outcome]

/-! ### Transactions -/

/-- Settles O20: reset, completion and acceptance are the transactions of their names; a working and an idle edge
change nothing that a transaction is about. -/
theorem edgesRefineTransactions : Obligations.EdgesRefineTransactions := by
  intro s t h
  obtain ⟨-, rfl⟩ | ⟨he, rfl⟩ | ⟨-, rfl⟩ | ⟨he, rfl⟩ | ⟨-, rfl⟩ := step_cases h
  · exact .inr (.inr (.inr ⟨rfl, rfl, rfl, rfl⟩))
  · obtain ⟨-, -, hbusy, -⟩ := edge_eq_completion_iff.mp he
    exact .inr (.inr (.inl ⟨hbusy, rfl⟩))
  · exact .inl rfl
  · obtain ⟨-, -, hbusy, -⟩ := edge_eq_acceptance_iff.mp he
    exact .inr (.inl ⟨_, _, _, hbusy, rfl⟩)
  · exact .inl rfl

end Sys2Proof.Proofs
end

section
/-! PROOFS. A command in flight edge by edge (spec/10_state.md R26, R30; spec/70_reset_and_hazards.md R229): the
working edges count down, the last edge completes. -/

namespace Sys2Proof.Proofs

open Sys2Proof.Machine Sys2Proof.Safety Sys2Proof.Laws

/-! ### A host without reset -/

/-- The host does not assert reset at the next `n` edges. -/
def NoResetFor (n : Nat) (s : State) : Prop := ∀ q ∈ s.pins.take n, q.rst = false

theorem noResetFor_of_forall {s : State} (h : ∀ q ∈ s.pins, q.rst = false) (n : Nat) : NoResetFor n s :=
  fun q hq => h q (List.mem_of_mem_take hq)

theorem NoResetFor.mono {m n : Nat} {s : State} (h : NoResetFor n s) (hmn : m ≤ n) : NoResetFor m s :=
  fun q hq => h q (List.take_subset_take_left _ hmn hq)

/-- One more edge without reset: the next one, and those after it. -/
theorem noResetFor_succ {n : Nat} {s : State} :
    NoResetFor (n + 1) s ↔ s.sampled.rst = false ∧ NoResetFor n s.advancePins := by
  cases h : s.pins <;> simp [NoResetFor, State.sampled, Pins.idle, h]

/-! ### The countdown -/

/-- The state `k` working edges later. -/
def waited (k : Nat) (s : State) : State :=
  { s with remaining := s.remaining - k, pins := s.pins.drop k }

theorem waited_work (k : Nat) (s : State) : waited k s.advancePins.work = waited (k + 1) s := by
  simp [waited, State.work, State.advancePins, Nat.sub_sub, Nat.add_comm 1 k]

theorem noResetFor_waited {k n : Nat} {s : State} (h : NoResetFor (k + n) s) : NoResetFor n (waited k s) := by
  intro q hq
  rw [waited, List.take_drop] at hq
  exact h q (List.mem_of_mem_drop hq)

/-- Until its completion edge is due, a command in flight only counts down. -/
theorem runEdges_waited {k : Nat} {s : State} (hdone : s.resetDone = true) (hbusy : s.busy = true)
    (hrst : NoResetFor k s) (hk : k ≤ s.remaining - 1) : runEdges k s = .next (waited k s) := by
  induction k generalizing s with
  | zero => rfl
  | succ k ih =>
    obtain ⟨hnow, hlater⟩ := noResetFor_succ.mp hrst
    have he : s.edge = .working := edge_eq_working_iff.mpr ⟨hnow, hdone, hbusy, by omega⟩
    rw [runEdges_succ (step_of_working he), ← waited_work]
    exact ih hdone hbusy hlater (by simp only [work_remaining, advancePins_remaining]; omega)

/-- The state after the completion edge of the command in flight in `s`. -/
def completed (s : State) : State :=
  (waited (s.remaining - 1) s).advancePins.complete (execute s.cmdL s.aL s.bL).1 (execute s.cmdL s.aL s.bL).2

/-- A command in flight completes at its completion edge with `Execute` of the latched words. A countdown at 0
completes as one at 1 does. -/
theorem runEdges_completed {s : State} (hdone : s.resetDone = true) (hbusy : s.busy = true)
    (hrst : NoResetFor (s.remaining - 1 + 1) s) : runEdges (s.remaining - 1 + 1) s = .next (completed s) := by
  have hwait := runEdges_waited hdone hbusy (hrst.mono (Nat.le_succ _)) le_rfl
  obtain ⟨hnow, -⟩ := noResetFor_succ.mp (noResetFor_waited hrst)
  have he : (waited (s.remaining - 1) s).edge = .completion :=
    edge_eq_completion_iff.mpr ⟨hnow, hdone, hbusy, by simp only [waited]; omega⟩
  rw [runEdges_add hwait, runEdges_succ (step_of_completion he)]
  rfl

/-- The completed state field by field: the countdown has stopped at 1. -/
theorem completed_eq {s : State} (h : 1 ≤ s.remaining) : completed s = { s with
    result := (execute s.cmdL s.aL s.bL).1
    status := (execute s.cmdL s.aL s.bL).2
    busy := false
    rvalid := true
    remaining := 1
    pins := s.pins.drop s.remaining } := by
  simp [completed, waited, State.advancePins, State.complete, Nat.sub_sub_self h, Nat.sub_add_cancel h]

/-- A countdown of at least 1 is the number of edges to completion. -/
theorem runEdges_remaining {s : State} (hdone : s.resetDone = true) (hbusy : s.busy = true)
    (hrem : 1 ≤ s.remaining) (hrst : NoResetFor s.remaining s) :
    runEdges s.remaining s = .next (completed s) := by
  have h := runEdges_completed hdone hbusy (by rwa [Nat.sub_add_cancel hrem])
  rwa [Nat.sub_add_cancel hrem] at h

/-- Settles O15: below the countdown the command has only waited; at it, or at 1 when it stands at 0, it has
completed. -/
theorem commandInFlightTerminates : Obligations.CommandInFlightTerminates := by
  intro s hdone hbusy hrst
  have hclear := noResetFor_of_forall hrst
  refine ⟨fun hrem => ?_, fun hrem => ?_, fun k hk => ?_⟩
  · exact ⟨_, runEdges_remaining hdone hbusy hrem (hclear _), rfl, rfl, rfl⟩
  · have hcompleted := runEdges_completed hdone hbusy (hclear _)
    rw [hrem] at hcompleted
    exact ⟨_, hcompleted, rfl, rfl, rfl⟩
  · exact ⟨_, runEdges_waited hdone hbusy (hclear k) (Nat.le_sub_one_of_lt hk), hbusy, rfl⟩

/-- Settles O14: acceptance starts the countdown at the latency, and the wait is over when it has run out. -/
theorem acceptedCommandCompletesAfterItsLatency : Obligations.AcceptedCommandCompletesAfterItsLatency := by
  intro s p waits rest hdone hbusy hpins hrst hstart hwaits hlength
  have haccept := step_of_presented hpins hdone hbusy hrst hstart
  have hlat := one_le_latency p.cmd p.a p.b
  have hclear : NoResetFor (latency p.cmd p.a p.b) (State.accept { s with pins := waits ++ rest } p.cmd p.a p.b) := by
    rw [← hlength, NoResetFor, accept_pins, List.take_left]
    exact hwaits
  simp only [Nat.add_comm 1, runEdges_succ haccept]
  refine ⟨hlat, fun k hk => ?_, ?_⟩
  · exact ⟨_, runEdges_waited hdone rfl (hclear.mono hk.le) (Nat.le_sub_one_of_lt hk), rfl⟩
  · refine (runEdges_remaining (s := .accept { s with pins := waits ++ rest } p.cmd p.a p.b)
      hdone rfl hlat hclear).trans ?_
    rw [completed_eq hlat]
    simp [State.accept, ← hlength]

/-- Settles O21: one edge accepts or resets, and a silent host lets the command in flight complete. -/
theorem transactionsAreRealisedByEdges : Obligations.TransactionsAreRealisedByEdges := by
  intro s t' hdone hstep
  obtain ⟨c, x, y, hbusy, rfl⟩ | ⟨hbusy, rfl⟩ | hreset := hstep
  · refine ⟨[⟨false, true, c, x, y⟩], 1, _, runEdges_succ (step_of_acceptance ?_), .inl rfl⟩
    exact edge_eq_acceptance_iff.mpr ⟨rfl, hdone, hbusy, rfl⟩
  · exact ⟨[], _, _, runEdges_completed (s := { s with pins := [] }) hdone hbusy
      (noResetFor_of_forall (by simp) _), .inl rfl⟩
  · refine ⟨[⟨true, false, 0, 0, 0⟩], 1, _, runEdges_succ (step_of_reset ?_), .inr ⟨hreset, rfl, rfl, rfl, rfl⟩⟩
    exact edge_eq_reset_iff.mpr rfl

end Sys2Proof.Proofs
end

section
/-! PROOFS. O22: the latches and the countdown of an idle core reach no port (spec/10_state.md R29;
spec/20_memory.md R46): states alike to the host take the same edge and stay alike. -/

namespace Sys2Proof.Proofs

open Sys2Proof.Machine Sys2Proof.Safety Sys2Proof.Laws

theorem outputs_eq_iff {s t : State} : s.outputs = t.outputs ↔
    s.busy = t.busy ∧ s.rvalid = t.rvalid ∧ s.result = t.result ∧ s.status = t.status := by
  simp [State.outputs]

theorem sampled_eq_of_sameToHost {s t : State} (h : SameToHost s t) : s.sampled = t.sampled := by
  rw [State.sampled, State.sampled, h.pins]

/-- The kind of an edge depends on the countdown only while a command is in flight. -/
theorem edge_eq_of_sameToHost {s t : State} (h : SameToHost s t) : s.edge = t.edge := by
  obtain ⟨hbusy, -⟩ := outputs_eq_iff.mp h.outputs
  rw [State.edge, State.edge, sampled_eq_of_sameToHost h, h.resetDone, ← hbusy]
  cases hb : s.busy with
  | false => rfl
  | true =>
    obtain ⟨-, -, -, hrem⟩ := h.inFlight hb
    rw [hrem]

theorem sameToHost_advancePins {s t : State} (h : SameToHost s t) : SameToHost s.advancePins t.advancePins :=
  ⟨h.outputs, h.resetDone, congrArg List.tail h.pins, h.inFlight⟩

theorem sameToHost_applyReset {s t : State} (h : SameToHost s t) : SameToHost s.applyReset t.applyReset :=
  ⟨rfl, rfl, h.pins, fun _ => ⟨rfl, rfl, rfl, rfl⟩⟩

theorem sameToHost_work {s t : State} (h : SameToHost s t) : SameToHost s.work t.work := by
  refine ⟨h.outputs, h.resetDone, h.pins, fun hbusy => ?_⟩
  obtain ⟨hcmd, ha, hb, hrem⟩ := h.inFlight hbusy
  exact ⟨hcmd, ha, hb, congrArg (· - 1) hrem⟩

theorem sameToHost_complete {s t : State} (h : SameToHost s t) (r : Word) (st : StatusCode) :
    SameToHost (s.complete r st) (t.complete r st) :=
  ⟨rfl, h.resetDone, h.pins, by simp⟩

theorem sameToHost_accept {s t : State} (h : SameToHost s t) (c : Cmd) (a b : Word) :
    SameToHost (s.accept c a b) (t.accept c a b) := by
  obtain ⟨-, -, hresult, hstatus⟩ := outputs_eq_iff.mp h.outputs
  exact ⟨outputs_eq_iff.mpr ⟨rfl, rfl, hresult, hstatus⟩, h.resetDone, h.pins, fun _ => ⟨rfl, rfl, rfl, rfl⟩⟩

/-- What the host cannot tell apart before an edge, it cannot tell apart after it. -/
theorem step_of_sameToHost {s t : State} (h : SameToHost s t) :
    (∃ s' t', step s = .next s' ∧ step t = .next t' ∧ SameToHost s' t') ∨
      (step s = .fault .stateUnspecified ∧ step t = .fault .stateUnspecified) := by
  have hnext := sameToHost_advancePins h
  have heq := edge_eq_of_sameToHost h
  cases he : s.edge with
  | reset => exact .inl ⟨_, _, step_of_reset he, step_of_reset (heq ▸ he), sameToHost_applyReset hnext⟩
  | unspecified => exact .inr ⟨step_of_unspecified he, step_of_unspecified (heq ▸ he)⟩
  | completion =>
    obtain ⟨-, -, hbusy, -⟩ := edge_eq_completion_iff.mp he
    obtain ⟨hcmd, ha, hb, -⟩ := h.inFlight hbusy
    refine .inl ⟨_, _, step_of_completion he, step_of_completion (heq ▸ he), ?_⟩
    rw [hcmd, ha, hb]
    exact sameToHost_complete hnext _ _
  | working => exact .inl ⟨_, _, step_of_working he, step_of_working (heq ▸ he), sameToHost_work hnext⟩
  | acceptance =>
    refine .inl ⟨_, _, step_of_acceptance he, step_of_acceptance (heq ▸ he), ?_⟩
    rw [State.acceptSampled, State.acceptSampled, sampled_eq_of_sameToHost h]
    exact sameToHost_accept hnext _ _ _
  | idle => exact .inl ⟨_, _, step_of_idle he, step_of_idle (heq ▸ he), hnext⟩

/-- Settles O22, by induction on the number of edges. -/
theorem hiddenStateNeverReachesThePorts : Obligations.HiddenStateNeverReachesThePorts := by
  intro s t h n
  induction n generalizing s t with
  | zero => exact h.outputs
  | succ n ih =>
    obtain ⟨s', t', hs, ht, h'⟩ | ⟨hs, ht⟩ := step_of_sameToHost h
    · rw [runEdges_succ hs, runEdges_succ ht]
      exact ih s' t' h'
    · simp only [runEdges, hs, ht, RunsAlike]

end Sys2Proof.Proofs
end

section
/-! PROOFS. O1 to O4: the command words (spec/30_encoding.md R60 to R67). The four fields determine a word and a
word its fields, and a word decodes to the one instruction whose number and flags stand in its fields; the four
statements are read off from that. -/

namespace Sys2Proof.Proofs

open Sys2Proof.Machine Sys2Proof.Safety

/-! ### The fields of a word (R60) -/

theorem op_eq_mod (c : Cmd) : c.op = c.toNat % 32 := by
  simp [Cmd.op, BitVec.extractLsb'_toNat]

/-- Bit `k` of a word, as a digit of its value. -/
theorem getLsbD_eq_digit (c : Cmd) (k : Nat) : c.getLsbD k = decide (c.toNat / 2 ^ k % 2 = 1) := by
  rw [BitVec.getLsbD, Nat.testBit_eq_decide_div_mod_eq]

theorem rsv_eq_false_iff (c : Cmd) : c.rsv = false ↔ c.toNat < 128 := by
  have hlt : c.toNat < 256 := c.isLt
  simp only [Cmd.rsv, getLsbD_eq_digit, decide_eq_false_iff_not]
  omega

theorem flags_eq_digits (c : Cmd) :
    c.flags = ⟨decide (c.toNat / 32 % 2 = 1), decide (c.toNat / 64 % 2 = 1)⟩ := by
  simp only [Cmd.flags, getLsbD_eq_digit]
  norm_num

theorem flags_eq_zero_iff (c : Cmd) : c.flags = .zero ↔ c.toNat / 32 % 4 = 0 := by
  simp only [flags_eq_digits, RoundingFlags.zero, RoundingFlags.mk.injEq, decide_eq_false_iff_not]
  omega

theorem flags_eq_zero_iff_bits (c : Cmd) : c.flags = .zero ↔ ¬(c.getLsbD 5 || c.getLsbD 6) = true := by
  simp [Cmd.flags, RoundingFlags.zero]

/-- The value of a packed word: nothing is carried out of the `OP` field or out of the word. -/
theorem toNat_packWord {op : Nat} (hop : op < 32) (f : RoundingFlags) :
    (packWord op f).toNat = op + (if f.ru then 32 else 0) + (if f.ido then 64 else 0) := by
  rw [packWord, BitVec.toNat_ofNat, Nat.mod_eq_of_lt]
  split <;> split <;> omega

/-- Packing, then reading: the fields of a packed word are the ones it was packed from. -/
theorem fields_packWord {op : Nat} (hop : op < 32) (f : RoundingFlags) :
    Cmd.rsv (packWord op f) = false ∧ Cmd.op (packWord op f) = op ∧ Cmd.flags (packWord op f) = f := by
  rw [rsv_eq_false_iff, op_eq_mod, flags_eq_digits, toNat_packWord hop]
  obtain ⟨ru, ido⟩ := f
  refine ⟨by split <;> split <;> omega, by split <;> split <;> omega, ?_⟩
  cases ru <;> cases ido <;> simp <;> omega

/-- Reading, then packing: a word with its reserved bit clear is packed from its fields. -/
theorem packWord_fields {c : Cmd} (hrsv : c.rsv = false) : packWord c.op c.flags = c := by
  rw [rsv_eq_false_iff] at hrsv
  have hop : c.op < 32 := by rw [op_eq_mod]; omega
  apply BitVec.eq_of_toNat_eq
  rw [toNat_packWord hop]
  simp only [op_eq_mod, flags_eq_digits, decide_eq_true_eq]
  split <;> split <;> omega

/-! ### The number and the flags of an instruction (R63) -/

theorem opNumber_range (i : Instr) : 1 ≤ i.opNumber ∧ i.opNumber ≤ 0x15 := by
  cases i <;> simp [Instr.opNumber]

theorem opNumber_lt (i : Instr) : i.opNumber < 32 := by
  have := opNumber_range i
  omega

theorem takesFlags_iff (i : Instr) : i.takesFlags = true ↔ i.opNumber ∈ [0x0A, 0x0B, 0x0E, 0x0F, 0x10] := by
  cases i <;> simp [Instr.takesFlags, Instr.opNumber]

theorem flags_of_not_takesFlags {i : Instr} (h : i.takesFlags = false) : i.flags = .zero := by
  cases i <;> cases h <;> rfl

/-- Flags are an instruction's own when they agree where it takes them and are 0 where it takes none. -/
theorem eq_flags_iff {f : RoundingFlags} {i : Instr} :
    f = i.flags ↔ (i.takesFlags = true → f = i.flags) ∧ (i.takesFlags = true ∨ f = .zero) := by
  cases h : i.takesFlags with
  | true => simp
  | false => simp [flags_of_not_takesFlags h]

/-- The row of the opcode map with number `op`, its flags taken from `f` if it takes any. -/
theorem opcodeMap_eq_some_iff {op : Nat} {f : RoundingFlags} {i : Instr} :
    opcodeMap op f = some i ↔ op = i.opNumber ∧ (i.takesFlags = true → f = i.flags) := by
  constructor
  · intro h
    unfold opcodeMap at h
    split at h <;> cases h <;> simp [Instr.opNumber, Instr.takesFlags, Instr.flags]
  · rintro ⟨rfl, hf⟩
    cases i <;> simp_all [opcodeMap, Instr.opNumber, Instr.takesFlags, Instr.flags]

/-- The numbers and flags that instructions have. -/
theorem exists_instr_iff {op : Nat} {f : RoundingFlags} : (∃ i : Instr, op = i.opNumber ∧ f = i.flags) ↔
    (1 ≤ op ∧ op ≤ 0x15) ∧ (op ∈ [0x0A, 0x0B, 0x0E, 0x0F, 0x10] ∨ f = .zero) := by
  constructor
  · rintro ⟨i, rfl, rfl⟩
    exact ⟨opNumber_range i, (eq_flags_iff.mp rfl).2.imp_left (takesFlags_iff i).mp⟩
  · rintro ⟨⟨hge, hle⟩, hf⟩
    obtain ⟨i, hi⟩ : ∃ i, opcodeMap op f = some i := by
      interval_cases op <;> exact ⟨_, rfl⟩
    obtain ⟨rfl, hflags⟩ := opcodeMap_eq_some_iff.mp hi
    exact ⟨i, rfl, eq_flags_iff.mpr ⟨hflags, hf.imp_left (takesFlags_iff i).mpr⟩⟩

/-! ### Decoding -/

/-- A word decodes to the instruction whose number and flags are in its fields, and to no other. -/
theorem decode_eq_ok_iff {c : Cmd} {i : Instr} :
    decode c = .ok i ↔ c.rsv = false ∧ c.op = i.opNumber ∧ c.flags = i.flags := by
  constructor
  · intro h
    unfold decode at h
    split at h
    · cases h
    · next hrsv =>
      split at h
      · cases h
      · next j hj =>
        split at h
        · cases h
        · next hflags =>
          cases h
          obtain ⟨hop, htaken⟩ := opcodeMap_eq_some_iff.mp hj
          refine ⟨by simpa using hrsv, hop, eq_flags_iff.mpr ⟨htaken, or_iff_not_imp_left.mpr ?_⟩⟩
          simpa using hflags
  · rintro ⟨hrsv, hop, hflags⟩
    obtain ⟨htaken, hallowed⟩ := eq_flags_iff.mp hflags
    rw [decode, hrsv, opcodeMap_eq_some_iff.mpr ⟨hop, htaken⟩]
    rcases hallowed with h | h <;> simp [h]

/-- The legal words (R66). -/
theorem exists_decode_iff {c : Cmd} : (∃ i, decode c = .ok i) ↔
    c.rsv = false ∧ (1 ≤ c.op ∧ c.op ≤ 0x15) ∧
      (c.op ∈ [0x0A, 0x0B, 0x0E, 0x0F, 0x10] ∨ c.flags = .zero) := by
  simp only [decode_eq_ok_iff, exists_and_left, exists_instr_iff]

theorem decode_error_of_illegal {c : Cmd} (h : ¬∃ i, decode c = .ok i) : ∃ r, decode c = .error r := by
  cases hd : decode c with
  | error r => exact ⟨r, rfl⟩
  | ok i => exact absurd ⟨i, hd⟩ h

theorem decode_packWord_iff {op : Nat} (hop : op < 32) {f : RoundingFlags} {i : Instr} :
    decode (packWord op f) = .ok i ↔ op = i.opNumber ∧ f = i.flags := by
  obtain ⟨hrsv, hop', hf⟩ := fields_packWord hop f
  rw [decode_eq_ok_iff, hrsv, hop', hf]
  simp

theorem decode_encode (i : Instr) : decode (encode i) = .ok i :=
  (decode_packWord_iff (opNumber_lt i)).mpr ⟨rfl, rfl⟩

theorem encode_of_decode {c : Cmd} {i : Instr} (h : decode c = .ok i) : encode i = c := by
  obtain ⟨hrsv, hop, hflags⟩ := decode_eq_ok_iff.mp h
  rw [encode, ← hop, ← hflags, packWord_fields hrsv]

/-- Settles O4: both directions read the fields of a word and its instruction off each other. -/
theorem decodeEncodeRoundTrip : Obligations.DecodeEncodeRoundTrip :=
  ⟨decode_encode, fun _ _ => encode_of_decode⟩

/-! ### Illegal words (R66, R67) -/

theorem execute_of_illegal {c : Cmd} (h : ¬∃ i, decode c = .ok i) (a b : Word) : execute c a b = (0, 7) := by
  obtain ⟨r, hr⟩ := decode_error_of_illegal h
  rw [execute, hr]
  rfl

/-- Settles O2: the three conditions are the negation of a legal word's. -/
theorem wordIllegalExactlyAsRuled : Obligations.WordIllegalExactlyAsRuled := by
  refine ⟨fun c => ?_, fun c a b h => execute_of_illegal (not_exists.mpr h) a b, by decide⟩
  rw [← not_exists, exists_decode_iff, flags_eq_zero_iff, op_eq_mod, Cmd.rsv]
  cases c.getLsbD 7 with
  | true => simp
  | false =>
    simp only [true_and, false_or, reduceCtorEq, not_and_or, not_or]
    exact or_congr_left (by omega)

/-- Settles O3: a word that passes the three tests is legal, and its instruction has its fields. -/
theorem decodeReadsTheFields : Obligations.DecodeReadsTheFields := by
  intro c
  have hlegal := exists_decode_iff (c := c)
  rw [op_eq_mod, flags_eq_zero_iff_bits] at hlegal
  split_ifs with hrsv hop hflags
  · refine decode_error_of_illegal (mt hlegal.mp ?_)
    rintro ⟨hclear, -, -⟩
    exact Bool.false_ne_true (hclear.symm.trans hrsv)
  · refine decode_error_of_illegal (mt hlegal.mp ?_)
    rintro ⟨-, hrange, -⟩
    omega
  · refine decode_error_of_illegal (mt hlegal.mp ?_)
    rintro ⟨-, -, hmem | hzero⟩
    · exact hflags.1 hmem
    · exact hzero hflags.2
  · obtain ⟨i, hi⟩ := hlegal.mpr
      ⟨Bool.eq_false_of_not_eq_true hrsv, by omega, or_iff_not_imp_left.mpr (not_and.mp hflags)⟩
    obtain ⟨-, hnumber, hfields⟩ := decode_eq_ok_iff.mp hi
    exact ⟨i, hi, by rw [← hnumber, op_eq_mod], hfields.symm⟩

/-! ### The opcode map's words (R63) -/

theorem or_two_pow_eq_add {a k : Nat} (h : a < 2 ^ k) : a ||| 2 ^ k = a + 2 ^ k := by
  simpa [Nat.or_comm, Nat.add_comm] using (Nat.two_pow_add_eq_or_of_lt h 1).symm

/-- The flag bits stand above the `OP` field, so setting them is adding them. -/
theorem flagWord_eq_packWord {op : Nat} (hop : op < 32) (f : RoundingFlags) : flagWord op f = packWord op f := by
  obtain ⟨ru, ido⟩ := f
  have hru : op ||| 0x20 = op + 0x20 := or_two_pow_eq_add (k := 5) hop
  have hido₀ : op ||| 0x40 = op + 0x40 := or_two_pow_eq_add (k := 6) (by omega)
  have hido₁ : (op + 0x20) ||| 0x40 = op + 0x20 + 0x40 := or_two_pow_eq_add (k := 6) (by omega)
  cases ru <;> cases ido <;> simp [flagWord, packWord, hru, hido₀, hido₁]

theorem decode_flagWord_iff {op : Nat} (hop : op < 32) {f : RoundingFlags} {i : Instr} :
    decode (flagWord op f) = .ok i ↔ op = i.opNumber ∧ f = i.flags := by
  rw [flagWord_eq_packWord hop, decode_packWord_iff hop]

/-- Settles O1: a word of the map is the encoding of its operation; a reserved number stands in no row. -/
theorem commandWordsDecodeAsTabled : Obligations.CommandWordsDecodeAsTabled := by
  refine ⟨?_, fun f => ?_, by decide, by decide, by decide⟩
  · exact ⟨decode_encode .fromInt, decode_encode .toInt, decode_encode .fromUInt, decode_encode .toUInt,
      decode_encode .add, decode_encode .sub, decode_encode .neg, decode_encode .abs, decode_encode .ceil,
      decode_encode .mulInt, decode_encode .square, decode_encode .sqrt, decode_encode .sqrtU,
      decode_encode .clz, decode_encode .ctz, decode_encode .fixed1⟩
  · simp [decode_flagWord_iff, Instr.opNumber, Instr.flags]

end Sys2Proof.Proofs
end

section
/-! PROOFS. O5: the operands an operation does not use (spec/30_encoding.md R65). A command completes with its
operation's answer, and the answer depends on as many operand words as the operation uses. -/

namespace Sys2Proof.Proofs

open Sys2Proof.Machine Sys2Proof.Safety Sys2Proof.Laws

theorem answer_of_one_operand {i : Instr} (h : operandCount i = 1) (a b b' : Word) :
    answer i a b = answer i a b' := by
  cases i <;> cases h <;> rfl

theorem answer_of_no_operand {i : Instr} (h : operandCount i = 0) (a b a' b' : Word) :
    answer i a b = answer i a' b' := by
  cases i <;> cases h
  rfl

/-- Settles O5: replacing an operand word leaves the answer, and so the completion, as it was. -/
theorem unusedOperandsAreIgnored : Obligations.UnusedOperandsAreIgnored := by
  intro i s x y o h
  simp only [completes_iff] at h ⊢
  refine ⟨fun hone => ?_, fun hnone => ?_⟩
  · rw [answer_of_one_operand hone _ y s.bL, h]
  · rw [answer_of_no_operand hnone x y s.aL s.bL, h]

end Sys2Proof.Proofs
end

section
/-! PROOFS. O6: the assembly notation (spec/30_encoding.md R68, R69). No two operations share a name, so
a name that folds to a source name finds that name's operation; a line's words are those of its name and of its
operands. -/

namespace Sys2Proof.Proofs

open Sys2Proof.Machine Sys2Proof.Safety Sys2Proof.Laws

/-! ### Names (R63, R69) -/

/-- No two operations share a name, whatever its case. -/
theorem asmNames_separate : ∀ row ∈ asmNames, ∀ other ∈ asmNames,
    foldCase row.2.2 = foldCase other.2.1 ∨ foldCase row.2.2 = foldCase other.2.2 → other.1 = row.1 := by
  decide

theorem asmOperation_of_mnemonic : ∀ row ∈ asmNames, asmOperation row.2.1 = some row.1 := by
  decide

/-- A source name in any case. -/
theorem asmOperation_of_source {row : Instr × String × String} (hrow : row ∈ asmNames) {name : String}
    (hname : foldCase name = foldCase row.2.2) : asmOperation name = some row.1 := by
  rw [asmOperation]
  split
  · next other hfind =>
    have hmatch := List.find?_some hfind
    have hother := List.mem_of_find?_eq_some hfind
    simp only [Bool.or_eq_true, beq_iff_eq] at hmatch
    refine congrArg some (asmNames_separate row hrow other hother ?_)
    rw [← hname]
    exact hmatch.imp_left (congrArg (List.map Char.toLower))
  · next hfind =>
    have hmiss := List.find?_eq_none.mp hfind row hrow
    simp [hname] at hmiss

/-! ### Operands and lines (R68) -/

theorem word_lit {v : Int} (h1 : -2 ^ 255 ≤ v) (h2 : v ≤ 2 ^ 256 - 1) (res : Word) :
    AsmOperand.word res (.expr (.lit v)) = some (bits256 v) :=
  if_pos ⟨h1, h2⟩

theorem word_lit_toNat (res x : Word) : AsmOperand.word res (.expr (.lit x.toNat)) = some x := by
  have hlt : x.toNat < 2 ^ 256 := u256_lt x
  rw [word_lit (by omega) (by omega)]
  exact congrArg some (bits256_u256 x)

theorem word_lit_toInt (res x : Word) : AsmOperand.word res (.expr (.lit x.toInt)) = some x := by
  have hle : x.toInt ≤ 2 ^ 255 - 1 := s256_le x
  rw [word_lit (BitVec.le_toInt x) (by omega)]
  exact congrArg some (bits256_s256 x)

/-- The words of a line with as many operands as its operation uses. -/
theorem assemble_eq {res : Word} {l : AsmLine} {i : Instr} {a b : Word} (hname : asmOperation l.name = some i)
    (hcount : l.operands.length = operandCount i) (hwords : asmOperands res l.operands = some (a, b)) :
    assemble res l = some (packWord i.opNumber ⟨l.ru, l.ido⟩, a, b) := by
  simp [assemble, hname, hcount, hwords]

theorem assemble_mul (res x : Word) (ru ido : Bool) :
    assemble res ⟨"MUL", ru, ido, [.expr (.lit x.toNat), .res]⟩ = some (flagWord 0x0B ⟨ru, ido⟩, x, res) := by
  rw [flagWord_eq_packWord (by decide)]
  exact assemble_eq (i := .mul .zero) (asmOperation_of_mnemonic (.mul .zero, "MUL", "mul") (by decide)) rfl
    (by rw [asmOperands, word_lit_toNat]; rfl)

theorem assemble_clz (res x : Word) (ru ido : Bool) :
    assemble res ⟨"countLeadingZeros", ru, ido, [.expr (.lit x.toInt)]⟩
      = some (flagWord 0x13 ⟨ru, ido⟩, x, 0) := by
  rw [flagWord_eq_packWord (by decide)]
  exact assemble_eq (i := .clz)
    (asmOperation_of_source (row := (.clz, "CLZ", "countLeadingZeros")) (by decide) rfl) rfl
    (by rw [asmOperands, word_lit_toInt]; rfl)

/-- A flag on an operation that takes none makes its word illegal (R66 c). -/
theorem decode_flagWord_clz_ne {ru ido : Bool} (h : (ru || ido) = true) (i : Instr) :
    decode (flagWord 0x13 ⟨ru, ido⟩) ≠ .ok i := by
  rw [Ne, decode_flagWord_iff (by decide)]
  rintro ⟨hnumber, hflags⟩
  have htakes : i.takesFlags = false := by
    rw [← Bool.not_eq_true, takesFlags_iff, ← hnumber]
    decide
  rw [flags_of_not_takesFlags htakes] at hflags
  cases hflags
  cases h

/-- Settles O6: the table's rows by the lemmas on names, a line's words by those on its name and operands; the two
lines of text are read by evaluation. -/
theorem assemblyLinesGiveTheirWords : Obligations.AssemblyLinesGiveTheirWords := by
  refine ⟨fun row hrow => ⟨asmOperation_of_mnemonic row hrow, fun _ => asmOperation_of_source hrow⟩, by decide,
    assemble_mul, fun res x => assemble_clz res x false false, by decide, by decide, fun res x ru ido => ?_⟩
  exact ⟨assemble_clz res x ru ido, decode_flagWord_clz_ne⟩

end Sys2Proof.Proofs
end

section
/-! PROOFS. O29 to O34: the converter (spec/40_conversion.md R100 to R105). Its two shifts on words, read signed,
are a product and a floored quotient by `2^128`; from these come the outcome of each operation and the round
trips. -/

namespace Sys2Proof.Proofs

open Sys2Proof.Machine Sys2Proof.Safety Sys2Proof.Laws

/-! ### The shifts of a word as values -/

/-- The arithmetic shift right, read signed, is the floor of the quotient. -/
theorem s256_sshiftRight (w : Word) (k : Nat) : s256 (w.sshiftRight k) = s256 w / 2 ^ k := by
  rw [s256, BitVec.toInt_sshiftRight, Int.shiftRight_eq_div_pow]
  norm_cast

/-- Flooring the signed value's quotient by `2^k` shifts the word arithmetically. -/
theorem bits256_shiftRightInt (w : Word) (k : Nat) :
    bits256 (shiftRightInt (s256 w) k) = w.sshiftRight k := by
  rw [shiftRightInt_eq_div, ← s256_sshiftRight, bits256_s256]

/-- Multiplying the unsigned value by `2^k` gives the same shifted word. -/
theorem bits256_shiftLeftInt_u256 (w : Word) (k : Nat) : bits256 (shiftLeftInt (u256 w) k) = w <<< k := by
  rw [← bits256_shiftLeftInt, shiftLeftInt, shiftLeftInt, bits256_mul, bits256_mul, bits256_u256, bits256_s256]

/-- The integer part of a word is in `[INT_MIN, INT_MAX]`. -/
theorem s256_sshiftRight_range (w : Word) :
    INT_MIN ≤ s256 (w.sshiftRight 128) ∧ s256 (w.sshiftRight 128) ≤ INT_MAX := by
  obtain ⟨hge, hle⟩ := fitsWord_signed.mp (fitsWord_s256 w)
  rw [s256_sshiftRight]
  simp only [INT_MIN, INT_MAX]
  omega

/-- No bit is lost to the shift left of a word in the integer range. -/
theorem s256_shiftLeft {w : Word} (hge : INT_MIN ≤ s256 w) (hle : s256 w ≤ INT_MAX) :
    s256 (w <<< 128) = s256 w * 2 ^ 128 := by
  simp only [INT_MIN, INT_MAX] at hge hle
  rw [← bits256_shiftLeftInt, shiftLeftInt]
  exact s256_bits256 (by simp only [MIN_RAW]; omega) (by simp only [MAX_RAW]; omega)

/-- A word with fraction bits 0 is a multiple of `2^128`. -/
theorem dvd_s256_of_fraction_eq_zero {w : Word} (h : w.extractLsb' 0 128 = 0) : 2 ^ 128 ∣ s256 w := by
  have hfraction : w.toNat % 2 ^ 128 = 0 := by simpa [BitVec.extractLsb'_toNat] using congrArg BitVec.toNat h
  rw [s256, BitVec.toInt_eq_toNat_cond]
  split <;> omega

theorem sshiftRight_shiftLeft {w : Word} (hge : INT_MIN ≤ s256 w) (hle : s256 w ≤ INT_MAX) :
    (w <<< 128).sshiftRight 128 = w := by
  rw [← BitVec.toInt_inj]
  calc s256 ((w <<< 128).sshiftRight 128) = s256 w * 2 ^ 128 / 2 ^ 128 := by
        rw [s256_sshiftRight, s256_shiftLeft hge hle]
    _ = s256 w := Int.mul_ediv_cancel _ (by norm_num)

theorem shiftLeft_sshiftRight {w : Word} (h : w.extractLsb' 0 128 = 0) :
    w.sshiftRight 128 <<< 128 = w := by
  obtain ⟨hge, hle⟩ := s256_sshiftRight_range w
  rw [← BitVec.toInt_inj]
  calc s256 (w.sshiftRight 128 <<< 128) = s256 w / 2 ^ 128 * 2 ^ 128 := by
        rw [s256_shiftLeft hge hle, s256_sshiftRight]
    _ = s256 w := Int.ediv_mul_cancel (dvd_s256_of_fraction_eq_zero h)

/-! ### The outcome of each operation (R100 to R103) -/

theorem outcomeOf_ite_error (c : Prop) [Decidable c] (k : ErrKind) (v : Int) :
    outcomeOf (if c then .error k else .ok v) = if c then (0, k.code) else (bits256 v, 0) :=
  apply_ite outcomeOf c _ _

theorem outcome_fromInt (a b : Word) : outcomeOf (answer .fromInt a b) =
    if s256 a < INT_MIN ∨ INT_MAX < s256 a then ((0, 1) : Word × StatusCode) else (a <<< 128, 0) := by
  simp only [answer, fromIntOp, outcomeOf_ite_error, bits256_shiftLeftInt, ErrKind.code]

theorem outcome_toInt (a b : Word) : outcomeOf (answer .toInt a b) = (a.sshiftRight 128, 0) := by
  simp only [answer, toIntOp, outcomeOf, bits256_shiftRightInt, statusOk]

theorem outcome_fromUInt (a b : Word) : outcomeOf (answer .fromUInt a b) =
    if INT_MAX < u256 a then ((0, 1) : Word × StatusCode) else (a <<< 128, 0) := by
  simp only [answer, fromUIntOp, outcomeOf_ite_error, bits256_shiftLeftInt_u256, ErrKind.code]

theorem outcome_toUInt (a b : Word) : outcomeOf (answer .toUInt a b) =
    if s256 a < 0 then ((0, 1) : Word × StatusCode) else (a.sshiftRight 128, 0) := by
  simp only [answer, toUIntOp, outcomeOf_ite_error, bits256_shiftRightInt, ErrKind.code]

/-- Settles O30: the completion is the outcome of TOINT; the two facts about its value are those of the shift. -/
theorem toIntIsTheFloor : Obligations.ToIntIsTheFloor :=
  ⟨decode_encode .toInt, fun s => ⟨(completes_iff _ _ _).mpr (outcome_toInt _ _), s256_sshiftRight s.aL 128,
    s256_sshiftRight_range s.aL⟩⟩

/-- Settles O29: the completion is the outcome of FROMINT. -/
theorem fromIntShiftsOrRangeError : Obligations.FromIntShiftsOrRangeError :=
  ⟨decode_encode .fromInt, fun _ => (completes_iff _ _ _).mpr (outcome_fromInt _ _)⟩

/-- Settles O31: the outcome of FROMUINT, its bound compared in `Nat`. -/
theorem fromUIntShiftsOrRangeError : Obligations.FromUIntShiftsOrRangeError := by
  refine ⟨decode_encode .fromUInt, fun s => ?_⟩
  have hbound : 2 ^ 127 - 1 < s.aL.toNat ↔ INT_MAX < u256 s.aL := by
    simp only [INT_MAX, u256]
    omega
  rw [completes_iff, outcome_fromUInt]
  simp only [hbound]

/-- Settles O32: bit 255 is the sign, and with the sign clear the two shifts right agree. -/
theorem toUIntShiftsOrRangeError : Obligations.ToUIntShiftsOrRangeError := by
  refine ⟨decode_encode .toUInt, fun s => ?_⟩
  rw [completes_iff, outcome_toUInt]
  cases hsign : s.aL.msb with
  | true =>
    have hneg : s256 s.aL < 0 := by simpa [msb_eq_neg] using hsign
    simp [hneg]
  | false =>
    have hnonneg : ¬s256 s.aL < 0 := by simpa [msb_eq_neg] using hsign
    simp [hnonneg, BitVec.sshiftRight_eq_of_msb_false hsign]

/-- Settles O33: the answer of FIXED1 reads nothing of the state. -/
theorem fixedOneIsTheConstant : Obligations.FixedOneIsTheConstant :=
  ⟨decode_encode .fixed1, fun _ => (completes_iff _ _ _).mpr rfl⟩

/-! ### The round trips (R105) -/

theorem execute_fromInt {a : Word} (hge : INT_MIN ≤ s256 a) (hle : s256 a ≤ INT_MAX) (b : Word) :
    execute 0x01 a b = (a <<< 128, 0) := by
  refine (execute_of_decode (decode_encode .fromInt) a b).trans ?_
  rw [outcome_fromInt, if_neg (by omega)]

theorem execute_toInt (a b : Word) : execute 0x02 a b = (a.sshiftRight 128, 0) :=
  (execute_of_decode (decode_encode .toInt) a b).trans (outcome_toInt a b)

/-- FROMINT shifts every result of TOINT back, without an error. -/
theorem execute_fromInt_toInt (x b b' : Word) :
    execute 0x01 (execute 0x02 x b).1 b' = (x.sshiftRight 128 <<< 128, 0) := by
  obtain ⟨hge, hle⟩ := s256_sshiftRight_range x
  rw [execute_toInt, execute_fromInt hge hle]

/-- Settles O34: the shifts undo each other, in the integer range one way and with fraction bits 0 the other. -/
theorem conversionRoundTrips : Obligations.ConversionRoundTrips := by
  refine ⟨fun x b b' hge hle => ?_, fun x b b' h => ?_, fun x b b' => ?_⟩
  · rw [execute_fromInt hge hle, execute_toInt, sshiftRight_shiftLeft hge hle]
  · rw [execute_fromInt_toInt, shiftLeft_sshiftRight h]
  · rw [execute_fromInt_toInt]

end Sys2Proof.Proofs
end

section
/-! PROOFS. O35 to O39: the adder, the negator and the ceiling (spec/41_additive.md R120 to R124). Each operation's
outcome is read off its answer once; what is left are facts about signed values: what the wrapped sum is, which
words a negation fits, and which multiple of `2^128` comes next. -/

namespace Sys2Proof.Proofs

open Sys2Proof.Machine Sys2Proof.Safety Sys2Proof.Laws

/-! ### The outcome of each operation -/

theorem outcomeOf_signedOrOverflow (v : Int) : outcomeOf (signedOrOverflow v) =
    if v < MIN_RAW ∨ MAX_RAW < v then ((0, 2) : Word × StatusCode) else (bits256 v, 0) :=
  outcomeOf_ite_error _ _ _

theorem outcome_add (a b : Word) : outcomeOf (answer .add a b) =
    if s256 a + s256 b < MIN_RAW ∨ MAX_RAW < s256 a + s256 b then ((0, 2) : Word × StatusCode)
    else (a + b, 0) := by
  simp only [answer, addOp, outcomeOf_signedOrOverflow, bits256_add, bits256_s256]

theorem outcome_sub (a b : Word) : outcomeOf (answer .sub a b) =
    if s256 a - s256 b < MIN_RAW ∨ MAX_RAW < s256 a - s256 b then ((0, 2) : Word × StatusCode)
    else (a - b, 0) := by
  simp only [answer, subOp, outcomeOf_signedOrOverflow, bits256_sub, bits256_s256]

theorem outcome_neg (a b : Word) : outcomeOf (answer .neg a b) =
    if a = BitVec.intMin 256 then ((0, 2) : Word × StatusCode) else (-a, 0) := by
  simp only [answer, negOp, outcomeOf_ite_error, bits256_neg, bits256_s256, ErrKind.code, eq_intMin_iff]

theorem outcome_abs (a b : Word) : outcomeOf (answer .abs a b) =
    if a = BitVec.intMin 256 then ((0, 2) : Word × StatusCode) else (if a.msb then -a else a, 0) := by
  simp only [answer, absOp, outcomeOf_ite_error, bits256_natCast, ← magnitude_eq, ErrKind.code, eq_intMin_iff]

/-! ### The adder (R120, R121) -/

/-- The wrapped sum is the exact one up to the multiple of `2^256` that brings it into range. -/
theorem s256_add_of_wrap {a b : Word} (k : Int) (hge : MIN_RAW ≤ s256 a + s256 b + k * 2 ^ 256)
    (hle : s256 a + s256 b + k * 2 ^ 256 ≤ MAX_RAW) : s256 (a + b) = s256 a + s256 b + k * 2 ^ 256 := by
  have hmod : bits256 (2 ^ 256) = 0 := rfl
  have hsum : bits256 (s256 a + s256 b + k * 2 ^ 256) = a + b := by
    simp only [bits256_add, bits256_mul, hmod, bits256_s256, mul_zero, add_zero]
  rw [← hsum, s256_bits256 hge hle]

/-- Without overflow nothing wraps. -/
theorem s256_add_of_fits {a b : Word} (hge : MIN_RAW ≤ s256 a + s256 b) (hle : s256 a + s256 b ≤ MAX_RAW) :
    s256 (a + b) = s256 a + s256 b := by
  simpa using s256_add_of_wrap 0 (by simpa using hge) (by simpa using hle)

/-- The source's sign test on the wrapped sum passes exactly when the exact sum is in range. -/
theorem signTest_iff (a b : Word) :
    ((0 ≤ s256 b ∧ s256 a ≤ s256 (a + b)) ∨ (s256 b < 0 ∧ s256 (a + b) < s256 a)) ↔
      (MIN_RAW ≤ s256 a + s256 b ∧ s256 a + s256 b ≤ MAX_RAW) := by
  obtain ⟨hage, hale⟩ := fitsWord_signed.mp (fitsWord_s256 a)
  obtain ⟨hbge, hble⟩ := fitsWord_signed.mp (fitsWord_s256 b)
  have hwrap := s256_add_of_wrap (a := a) (b := b)
  simp only [MIN_RAW, MAX_RAW] at hwrap ⊢
  rcases lt_or_ge (s256 a + s256 b) (-2 ^ 255) with hlow | hlow
  · rw [hwrap 1 (by omega) (by omega)]
    omega
  rcases lt_or_ge (2 ^ 255 - 1) (s256 a + s256 b) with hhigh | hhigh
  · rw [hwrap (-1) (by omega) (by omega)]
    omega
  · rw [hwrap 0 (by omega) (by omega)]
    omega

/-- Settles O35: the outcome of ADD on the range condition, which the sign test is. -/
theorem addIsExactOrOverflow : Obligations.AddIsExactOrOverflow := by
  refine ⟨decode_encode .add, fun s => ⟨?_, signTest_iff s.aL s.bL⟩⟩
  rw [completes_iff, outcome_add, if_congr (signTest_iff s.aL s.bL) rfl rfl, ← ite_not]
  simp only [not_or, not_lt]

/-- A successful ADD did not overflow, and leaves the wrapped sum. -/
theorem fits_of_execute_add {a b r : Word} (h : execute 0x05 a b = (r, 0)) :
    MIN_RAW ≤ s256 a + s256 b ∧ s256 a + s256 b ≤ MAX_RAW ∧ a + b = r := by
  replace h := (execute_of_decode (decode_encode .add) a b).symm.trans h
  rw [outcome_add] at h
  split at h
  · exact absurd (congrArg Prod.snd h) (by decide : (2 : StatusCode) ≠ 0)
  · next hfits =>
    rw [not_or, not_lt, not_lt] at hfits
    exact ⟨hfits.1, hfits.2, congrArg Prod.fst h⟩

/-- Settles O36: the outcome of SUB; after a successful ADD the exact difference is the first operand again. -/
theorem subIsExactOrOverflow : Obligations.SubIsExactOrOverflow := by
  refine ⟨decode_encode .sub, fun s => (completes_iff _ _ _).mpr (outcome_sub _ _), fun a b r h => ?_⟩
  obtain ⟨hge, hle, rfl⟩ := fits_of_execute_add h
  have hdiff : s256 (a + b) - s256 b = s256 a := by rw [s256_add_of_fits hge hle, add_sub_cancel_right]
  refine (execute_of_decode (decode_encode .sub) _ _).trans ?_
  have hfits : ¬(s256 a < MIN_RAW ∨ MAX_RAW < s256 a) := not_or.mpr ⟨(s256_ge a).not_gt, (s256_le a).not_gt⟩
  rw [outcome_sub, hdiff, BitVec.add_sub_cancel, if_neg hfits]

/-! ### The negator (R122, R123) -/

/-- Settles O37: the completion is the outcome of NEG. -/
theorem negIsTwosComplementOrOverflow : Obligations.NegIsTwosComplementOrOverflow :=
  ⟨decode_encode .neg, fun _ => (completes_iff _ _ _).mpr (outcome_neg _ _)⟩

/-- The magnitude word of every word but the most negative one is the absolute value, read signed too. -/
theorem s256_magnitude {w : Word} (h : w ≠ BitVec.intMin 256) :
    s256 (if w.msb then -w else w) = (s256 w).natAbs := by
  have hfits := absOp_fits w
  rw [ne_eq, eq_intMin_iff] at h
  rw [absOp, if_neg h, returns_ok, fitsWord_signed] at hfits
  rw [magnitude_eq, ← bits256_natCast, s256_bits256 hfits.1 hfits.2]

/-- Settles O38: the completion is the outcome of ABS, and its result reads as an absolute value. -/
theorem absIsNonnegativeOrOverflow : Obligations.AbsIsNonnegativeOrOverflow :=
  ⟨decode_encode .abs, fun _ => ⟨(completes_iff _ _ _).mpr (outcome_abs _ _),
    fun h => (Int.natCast_nonneg _).trans_eq (s256_magnitude h).symm⟩⟩

/-! ### The ceiling (R124) -/

/-- The value that CEIL returns below its threshold. -/
def nextUnit (x : Int) : Int := shiftLeftInt (shiftRightInt (x + MASK) 128) 128

theorem outcome_ceil (a b : Word) : outcomeOf (answer .ceil a b) =
    if CEIL_LIMIT ≤ s256 a then ((0, 2) : Word × StatusCode) else (bits256 (nextUnit (s256 a)), 0) :=
  outcomeOf_ite_error _ _ _

/-- `nextUnit x` lies from `x` up to, but not reaching, one unit above it. -/
theorem nextUnit_bounds (x : Int) : x ≤ nextUnit x ∧ nextUnit x < x + 2 ^ 128 := by
  simp only [nextUnit, shiftLeftInt, shiftRightInt_eq_div, MASK]
  omega

/-- A value shifted left by 128 is written with fraction bits 0. -/
theorem fraction_shiftLeftInt (v : Int) : (bits256 (shiftLeftInt v 128)).extractLsb' 0 128 = 0 := by
  have hpow : bits256 (2 ^ 128) = BitVec.twoPow 256 128 := rfl
  rw [shiftLeftInt, bits256_mul, hpow, BitVec.mul_twoPow_eq_shiftLeft]
  ext i hi
  simp [hi]

/-- Below the threshold the next unit is written without wrapping. -/
theorem s256_nextUnit {w : Word} (h : s256 w < CEIL_LIMIT) :
    s256 (bits256 (nextUnit (s256 w))) = nextUnit (s256 w) := by
  have hfits := ceilOp_fits w
  rw [ceilOp, if_neg (not_le.mpr h), returns_ok, fitsWord_signed] at hfits
  exact s256_bits256 hfits.1 hfits.2

/-- Settles O39: the result is the next unit, which is a shifted value within its bounds. -/
theorem ceilIsTheNextWholeUnit : Obligations.CeilIsTheNextWholeUnit := by
  refine ⟨decode_encode .ceil, fun s => ⟨bits256 (nextUnit (s256 s.aL)),
    (completes_iff _ _ _).mpr (outcome_ceil _ _), fun h => ⟨fraction_shiftLeftInt _, ?_⟩⟩⟩
  rw [show BitVec.toInt _ = _ from s256_nextUnit h]
  exact nextUnit_bounds _

end Sys2Proof.Proofs
end

section
/-! PROOFS. O40 to O44: the multiplier (spec/42_multiply.md R140 to R144). The outcome of MULMAG is read off the
bits of the exact product; that of MUL off the outcome of MULMAG on the magnitudes, by the sign step it shares with
DIV; MULINT turns on when a wrapped product is exact; SQUARE and the laws are the closed form of MUL. -/

namespace Sys2Proof.Proofs

open Sys2Proof.Machine Sys2Proof.Safety Sys2Proof.Laws

/-! ### The magnitude multiply (R140) -/

theorem mulMagOp_eq (x y : Nat) (f : RoundingFlags) : mulMagOp x y f =
    if 2 ^ 256 ≤ x * y / 2 ^ 128 then .error .overflowError
    else if f.ido = false ∧ x ≠ 0 ∧ y ≠ 0 ∧ x * y / 2 ^ 128 = 0 then .error .precisionLossError
    else .ok (roundUpMag f (x * y % 2 ^ 128 != 0) (x * y / 2 ^ 128)) := rfl

theorem outcomeOf_guard (c : Prop) [Decidable c] (k : ErrKind) (ans : Answer) :
    outcomeOf (if c then .error k else ans) = if c then (0, k.code) else outcomeOf ans :=
  apply_ite outcomeOf c _ _

theorem map_guard {α β : Type} (g : α → β) (c : Prop) [Decidable c] (k : ErrKind) (x : Except ErrKind α) :
    (if c then .error k else x).map g = if c then .error k else x.map g :=
  apply_ite (Except.map g) c _ _

theorem outcome_mulMag (f : RoundingFlags) (a b : Word) : outcomeOf (answer (.mulMag f) a b) =
    if 2 ^ 256 ≤ u256 a * u256 b / 2 ^ 128 then ((0, 2) : Word × StatusCode)
    else if f.ido = false ∧ u256 a ≠ 0 ∧ u256 b ≠ 0 ∧ u256 a * u256 b / 2 ^ 128 = 0 then (0, 5)
    else (bits256 (roundUpMag f (u256 a * u256 b % 2 ^ 128 != 0) (u256 a * u256 b / 2 ^ 128)), 0) := by
  simp only [answer, mulMagOp_eq, map_guard, outcomeOf_guard]
  rfl

/-! ### The bits of the exact product -/

/-- The product of two words extended to twice their width does not wrap. -/
theorem toNat_fullProduct {w : Nat} (a b : BitVec w) :
    (a.zeroExtend (w + w) * b.zeroExtend (w + w)).toNat = a.toNat * b.toNat := by
  have ha : (a.zeroExtend (w + w)).toNat = a.toNat := BitVec.toNat_setWidth_of_le (Nat.le_add_right w w)
  have hb : (b.zeroExtend (w + w)).toNat = b.toNat := BitVec.toNat_setWidth_of_le (Nat.le_add_right w w)
  have hlt : a.toNat * b.toNat < 2 ^ (w + w) := Nat.pow_add 2 w w ▸ Nat.mul_lt_mul'' a.isLt b.isLt
  rw [BitVec.toNat_mul_of_lt (by rwa [ha, hb]), ha, hb]

/-- The top bits of a word are what is left when the bits below are shifted out. -/
theorem toNat_topBits {w k : Nat} (p : BitVec (w + k)) : (p.extractLsb' w k).toNat = p.toNat >>> w := by
  have hlt : p.toNat < 2 ^ w * 2 ^ k := Nat.pow_add 2 w k ▸ p.isLt
  rw [BitVec.extractLsb'_toNat, Nat.shiftRight_eq_div_pow, Nat.mod_eq_of_lt (Nat.div_lt_of_lt_mul hlt)]

/-- The bits above the window are set exactly when the product does not fit it. -/
theorem overflowBits_ne_zero_iff (p : BitVec 512) :
    p.extractLsb' 384 128 ≠ 0 ↔ 2 ^ 256 ≤ p.toNat / 2 ^ 128 := by
  have htop : (p.extractLsb' 384 128).toNat = p.toNat >>> 128 >>> 256 :=
    (toNat_topBits (w := 384) (k := 128) p).trans (Nat.shiftRight_add _ 128 256)
  rw [ne_eq, ← BitVec.toNat_inj, htop, Nat.shiftRight_eq_div_pow, Nat.shiftRight_eq_div_pow,
    BitVec.ofNat_eq_ofNat, BitVec.toNat_ofNat, Nat.zero_mod,
    Nat.div_eq_zero_iff_lt (Nat.two_pow_pos 256), not_lt]

theorem window_eq (p : BitVec 512) : p.extractLsb' 128 256 = bits256 (p.toNat / 2 ^ 128 : Nat) := by
  rw [bits256_natCast, ← Nat.shiftRight_eq_div_pow]
  rfl

theorem toNat_window {p : BitVec 512} (h : p.toNat / 2 ^ 128 < 2 ^ 256) :
    (p.extractLsb' 128 256).toNat = p.toNat / 2 ^ 128 := by
  rw [window_eq]
  exact u256_bits256 h

/-- The truncated bits are the remainder of the product by `2^128`. -/
theorem fraction_ne_zero_iff (p : BitVec 512) : p.extractLsb' 0 128 ≠ 0 ↔ p.toNat % 2 ^ 128 ≠ 0 := by
  rw [ne_eq, ← BitVec.toNat_inj, BitVec.extractLsb'_toNat]
  rfl

theorem u256_eq_zero_iff (w : Word) : u256 w = 0 ↔ w = 0 := BitVec.toNat_inj (y := 0)

/-- `ROUND_UP` on the window, in words. -/
theorem roundUpMag_window {p : BitVec 512} (h : p.toNat / 2 ^ 128 < 2 ^ 256) (f : RoundingFlags) :
    bits256 (roundUpMag f (p.toNat % 2 ^ 128 != 0) (p.toNat / 2 ^ 128)) =
      if f.ru = true ∧ p.extractLsb' 0 128 ≠ 0 ∧ (p.extractLsb' 128 256).toNat < 2 ^ 255 - 1 then
        p.extractLsb' 128 256 + 1
      else p.extractLsb' 128 256 := by
  have hbound : ((p.toNat / 2 ^ 128 : Nat) : Int) < MAX_RAW ↔ (p.extractLsb' 128 256).toNat < 2 ^ 255 - 1 := by
    rw [toNat_window h]
    simp only [MAX_RAW]
    omega
  simp only [roundUpMag, hbound, fraction_ne_zero_iff, bne_iff_ne, window_eq]
  split
  · rw [Nat.cast_add, bits256_add]
    rfl
  · rfl

/-- Settles O40: each test on the exact product reads the bits named, and the rounded window is the one in words. -/
theorem mulMagIsTheProductWindow : Obligations.MulMagIsTheProductWindow := by
  refine ⟨fun f => (decode_flagWord_iff (by decide)).mpr ⟨rfl, rfl⟩, fun s f p hp => ?_⟩
  have hproduct : u256 s.aL * u256 s.bL = p.toNat := hp ▸ (toNat_fullProduct s.aL s.bL).symm
  rw [completes_iff, outcome_mulMag, hproduct]
  simp only [overflowBits_ne_zero_iff, ne_eq, u256_eq_zero_iff]
  split
  · rfl
  · next hover =>
    have hfits := not_le.mp hover
    have hzero : p.toNat / 2 ^ 128 = 0 ↔ p.extractLsb' 128 256 = 0 := by
      rw [← toNat_window hfits]
      exact u256_eq_zero_iff _
    simp only [hzero, roundUpMag_window hfits]
    split
    · rfl
    · exact apply_ite (Prod.mk · 0) _ _ _

/-! ### The sign step (R141) -/

theorem msb_bits256 {r : Nat} (h : r < 2 ^ 256) : (bits256 r).msb = decide (2 ^ 255 ≤ r) := by
  rw [BitVec.msb_eq_decide]
  exact congrArg (fun n => decide (2 ^ 255 ≤ n)) (u256_bits256 h)

/-- The sign and top-bit step of MUL and DIV on the outcome of their magnitude operation. -/
theorem outcomeOf_reattachSign (a b : Word) {mag : Except ErrKind Nat} (h : Returns (· < 2 ^ 256) mag)
    {m : Word × StatusCode} (hm : m = outcomeOf (mag.map Int.ofNat)) :
    outcomeOf (reattachSign (s256 a) (s256 b) mag) =
      if m.2 ≠ 0 then (0, m.2)
      else if m.1.msb then (0, 2)
      else (if a.msb != b.msb then -m.1 else m.1, 0) := by
  cases mag with
  | error k =>
    subst hm
    exact (if_pos (code_ne_zero k)).symm
  | ok r =>
    obtain rfl : m = (bits256 r, 0) := hm
    have htop : (bits256 r).msb = decide (2 ^ 255 ≤ r) := msb_bits256 (h r rfl)
    rw [if_neg (not_not.mpr rfl), reattachSign, outcomeOf_guard, htop, msb_eq_neg, msb_eq_neg, ← bits256_neg]
    simp only [decide_eq_true_eq]
    split
    · rfl
    · split <;> rfl

theorem u256_magnitude (w : Word) : u256 (if w.msb then -w else w) = (s256 w).natAbs := by
  have h := natAbs_s256_le w
  rw [magnitude_eq, ← bits256_natCast, u256_bits256 (by omega)]

/-- MUL with its two `abs` tests, which raise the same kind, as one. -/
theorem mulOp_eq (a b : Int) (f : RoundingFlags) : mulOp a b f =
    if a = 0 ∨ b = 0 then .ok 0
    else if a = MIN_RAW ∨ b = MIN_RAW then .error .overflowError
    else reattachSign a b (mulMagOp a.natAbs b.natAbs f) := by
  simp only [mulOp, ite_or]

theorem outcome_mul (f : RoundingFlags) (a b : Word) : outcomeOf (answer (.mul f) a b) =
    if a = 0 ∨ b = 0 then ((0, 0) : Word × StatusCode)
    else if a = BitVec.intMin 256 ∨ b = BitVec.intMin 256 then (0, 2)
    else outcomeOf (reattachSign (s256 a) (s256 b) (mulMagOp (s256 a).natAbs (s256 b).natAbs f)) := by
  simp only [answer, mulOp_eq, apply_ite outcomeOf, eq_zero_iff, eq_intMin_iff]
  rfl

/-- Settles O41: MULMAG reads the magnitude words as absolute values, and the sign step reads its outcome. -/
theorem mulIsSignedMulMag : Obligations.MulIsSignedMulMag := by
  refine ⟨decode_flagWord_mul, fun s f m hm => ?_⟩
  have hword : decode (flagWord 0x0A f) = .ok (.mulMag f) := (decode_flagWord_iff (by decide)).mpr ⟨rfl, rfl⟩
  rw [execute_of_decode hword, answer, u256_magnitude, u256_magnitude] at hm
  rw [completes_iff, outcome_mul, outcomeOf_reattachSign s.aL s.bL (mulMagOp_lt _ _ f) hm]

/-! ### The product with an integer (R142) -/

/-- The wrapped product is the exact one exactly when that is in range. -/
theorem s256_mul_eq_iff (a b : Word) :
    s256 (a * b) = s256 a * s256 b ↔ MIN_RAW ≤ s256 a * s256 b ∧ s256 a * s256 b ≤ MAX_RAW := by
  constructor
  · intro h
    exact h ▸ ⟨s256_ge _, s256_le _⟩
  · rintro ⟨hge, hle⟩
    rw [← s256_bits256 hge hle, bits256_mul, bits256_s256, bits256_s256]

/-- The source's division recovers B exactly when the product did not wrap: a wrapped product is off by a multiple
of `2^256`, which is more than a remainder by A can be. -/
theorem tdiv_mul_eq_iff {a : Word} (ha : s256 a ≠ 0) (b : Word) :
    (s256 (a * b)).tdiv (s256 a) = s256 b ↔ s256 (a * b) = s256 a * s256 b := by
  constructor
  · intro h
    have hdvd : (2 ^ 256 : Int) ∣ s256 (a * b) - s256 a * s256 b := by
      rw [s256, BitVec.toInt_mul]
      exact_mod_cast Int.dvd_bmod_sub_self
    have hrem : s256 (a * b) - s256 a * s256 b = (s256 (a * b)).tmod (s256 a) := by
      rw [← h, sub_eq_iff_eq_add', Int.mul_tdiv_add_tmod]
    have hlt : ((s256 (a * b)).tmod (s256 a)).natAbs < (s256 a).natAbs := by
      rw [Int.natAbs_tmod]
      exact Nat.mod_lt _ (Int.natAbs_pos.mpr ha)
    have hle := natAbs_s256_le a
    refine sub_eq_zero.mp (Int.eq_zero_of_abs_lt_dvd hdvd ?_)
    rw [hrem, Int.abs_eq_natAbs]
    omega
  · intro h
    rw [h, Int.mul_tdiv_cancel_left _ ha]

/-- The source's overflow test is the exact range condition. -/
theorem divisionTest_iff {a : Word} (ha : a ≠ 0) (b : Word) :
    ((s256 a = -1 ∧ b = BitVec.intMin 256) ∨ (s256 (a * b)).tdiv (s256 a) ≠ s256 b) ↔
      (s256 a * s256 b < MIN_RAW ∨ MAX_RAW < s256 a * s256 b) := by
  have hedge : s256 a = -1 ∧ b = BitVec.intMin 256 → MAX_RAW < s256 a * s256 b := by
    rintro ⟨hx, rfl⟩
    rw [hx, (eq_intMin_iff _).mp rfl]
    decide
  rw [ne_eq, tdiv_mul_eq_iff ((eq_zero_iff a).not.mp ha), s256_mul_eq_iff, not_and_or, not_le, not_le,
    or_iff_right_of_imp (fun h => .inr (hedge h))]

theorem outcome_mulInt (a b : Word) : outcomeOf (answer .mulInt a b) =
    if a = 0 then ((0, 0) : Word × StatusCode)
    else if s256 a * s256 b < MIN_RAW ∨ MAX_RAW < s256 a * s256 b then (0, 2)
    else (a * b, 0) := by
  simp only [answer, mulIntOp, apply_ite outcomeOf, outcomeOf_signedOrOverflow, eq_zero_iff, bits256_mul,
    bits256_s256]
  rfl

/-- Settles O42: the outcome of MULINT on the range condition, which the division test is. -/
theorem mulIntIsExactOrOverflow : Obligations.MulIntIsExactOrOverflow := by
  refine ⟨decode_encode .mulInt, fun s => ⟨?_, fun ha => divisionTest_iff ha s.bL⟩⟩
  rw [completes_iff, outcome_mulInt]
  split
  · rfl
  · next ha => exact (if_congr (divisionTest_iff ha s.bL) rfl rfl).symm

/-! ### The square (R143) -/

theorem roundUpMag_zero (inexact : Bool) (r : Nat) : roundUpMag .zero inexact r = r := by
  simp [roundUpMag, RoundingFlags.zero]

theorem reattachSign_self (x : Int) (r : Nat) :
    reattachSign x x (.ok r) = if 2 ^ 255 ≤ r then .error .overflowError else .ok (r : Int) := by
  simp [reattachSign]

/-- SQUARE by thresholds on the exact square: the top-bit test, at `2^383`, covers MULMAG's overflow, at `2^384`, and
the `abs` test, since the square of `MIN_RAW` is `2^510`. -/
theorem squareOp_eq (x : Int) : squareOp x =
    if 2 ^ 128 * 2 ^ 255 ≤ x * x then .error .overflowError
    else if x ≠ 0 ∧ x * x < 2 ^ 128 then .error .precisionLossError
    else .ok (x * x / 2 ^ 128) := by
  rcases eq_or_ne x 0 with rfl | h0
  · rfl
  rcases eq_or_ne x MIN_RAW with rfl | hmin
  · rfl
  have hsquare : x * x = (x.natAbs * x.natAbs : Nat) := Int.natAbs_mul_self.symm
  rw [squareOp, mulOp_eq, if_neg (or_self_iff.not.mpr h0), if_neg (or_self_iff.not.mpr hmin), mulMagOp_eq,
    roundUpMag_zero, hsquare]
  have hn : x.natAbs ≠ 0 := Int.natAbs_ne_zero.mpr h0
  generalize x.natAbs * x.natAbs = p
  rcases lt_or_ge p (2 ^ 128) with hloss | hloss
  · rw [if_neg (by omega), if_pos ⟨rfl, hn, hn, by omega⟩, if_neg (by omega), if_pos ⟨h0, by omega⟩]
    rfl
  rw [if_neg (by omega : ¬(x ≠ 0 ∧ (p : Int) < 2 ^ 128))]
  rcases lt_or_ge (p / 2 ^ 128) (2 ^ 256) with hwindow | hwindow
  · rw [if_neg (by omega), if_neg (by omega), reattachSign_self]
    exact if_congr (by omega) rfl rfl
  · rw [if_pos hwindow, if_pos (by omega)]
    rfl

/-- Settles O43: SQUARE answers as MUL with flags 0 does, and its closed form has the thresholds. -/
theorem squareIsMulByItself : Obligations.SquareIsMulByItself := by
  refine ⟨decode_encode .square, fun s => ?_⟩
  have hmul : execute 0x0B s.aL s.aL = outcomeOf (answer .square s.aL s.aL) :=
    execute_of_decode (decode_encode (.mul .zero)) _ _
  refine ⟨(completes_iff _ _ _).mpr hmul.symm, ?_⟩
  simp only [hmul, answer, squareOp_eq, outcomeOf_guard, ne_eq, eq_zero_iff]
  rfl

/-! ### The laws (R144) -/

/-- A word times one loses no bits and leaves no remainder to round by. -/
theorem mulMagOp_one {x : Nat} (h : x < 2 ^ 256) (f : RoundingFlags) : mulMagOp x (2 ^ 128) f = .ok x := by
  rw [mulMagOp_eq, Nat.mul_div_cancel _ (Nat.two_pow_pos 128), Nat.mul_mod_left, if_neg (by omega),
    if_neg (fun hloss => hloss.2.1 hloss.2.2.2)]
  exact congrArg Except.ok (roundUpMag_exact f x)

theorem reattachSign_of_lt (a b : Int) {r : Nat} (h : r < 2 ^ 255) : reattachSign a b (.ok r) =
    .ok (if decide (a < 0) != decide (b < 0) then -(r : Int) else r) := by
  rw [reattachSign, if_neg (not_le.mpr h), ← apply_ite]

/-- With a positive factor the combined sign gives an operand back from its magnitude. -/
theorem combinedSign_natAbs (x : Int) {b : Int} (h : 0 ≤ b) :
    (if decide (x < 0) != decide (b < 0) then -(x.natAbs : Int) else x.natAbs) = x := by
  simp only [h.not_gt, decide_false, Bool.bne_false, decide_eq_true_eq]
  split <;> omega

theorem mulOp_one (w : Word) (f : RoundingFlags) : mulOp (s256 w) FIXED_ONE f =
    if s256 w = MIN_RAW then .error .overflowError else .ok (s256 w) := by
  obtain ⟨hge, hle⟩ := fitsWord_signed.mp (fitsWord_s256 w)
  generalize s256 w = x at hge hle ⊢
  rcases eq_or_ne x 0 with rfl | h0
  · rfl
  rcases eq_or_ne x MIN_RAW with rfl | hmin
  · rfl
  have hlt : x.natAbs < 2 ^ 255 := by
    simp only [MIN_RAW] at hmin
    omega
  have hone : FIXED_ONE.natAbs = 2 ^ 128 := rfl
  rw [mulOp_eq, if_neg (not_or.mpr ⟨h0, by decide⟩), if_neg (not_or.mpr ⟨hmin, by decide⟩), if_neg hmin, hone,
    mulMagOp_one (by omega), reattachSign_of_lt x _ hlt, combinedSign_natAbs x (by decide)]

theorem mulMagOp_comm (x y : Nat) (f : RoundingFlags) : mulMagOp x y f = mulMagOp y x f := by
  simp only [mulMagOp_eq, Nat.mul_comm x y, and_left_comm (a := x ≠ 0)]

theorem reattachSign_comm (a b : Int) (mag : Except ErrKind Nat) :
    reattachSign a b mag = reattachSign b a mag := by
  simp only [reattachSign, bne_comm (a := decide (a < 0))]

theorem mulOp_comm (a b : Int) (f : RoundingFlags) : mulOp a b f = mulOp b a f := by
  simp only [mulOp_eq, mulMagOp_comm a.natAbs, reattachSign_comm a, or_comm (a := a = 0),
    or_comm (a := a = MIN_RAW)]

/-- Settles O44: both laws hold of `mulOp`, whose answer is the outcome under every flag setting. -/
theorem multiplierLaws : Obligations.MultiplierLaws := by
  refine ⟨fun x f => ?_, fun a b f => ?_⟩
  · have hone : s256 (BitVec.ofInt 256 (2 ^ 128)) = FIXED_ONE := rfl
    rw [execute_of_decode (decode_flagWord_mul f), answer, hone, mulOp_one, outcomeOf_ite_error, bits256_s256]
    simp only [eq_intMin_iff]
    rfl
  · rw [execute_of_decode (decode_flagWord_mul f), execute_of_decode (decode_flagWord_mul f), answer, answer,
      mulOp_comm]

end Sys2Proof.Proofs
end

section
/-! PROOFS. O45 to O48: the divider (spec/43_divide.md R160 to R163). DIVMAG in closed form turns on the quotient
scaled by `2^e`, of which the re-scaled one is the value; DIV reads the outcome of DIVMAG on the magnitudes through
the sign step; DIVINT is the signed division of words, whose rounded quotient cannot reach the bound of the rule. -/

namespace Sys2Proof.Proofs

open Sys2Proof.Machine Sys2Proof.Safety Sys2Proof.Laws

/-! ### The quotient with `e` of its 128 fraction bits (R160) -/

/-- The quotient truncated after `e` fraction bits, in units of `2^-128`. -/
def scaledQuotient (x y e : Nat) : Nat := x * 2 ^ e / y * 2 ^ (128 - e)

theorem scaledQuotient_full (x y : Nat) : scaledQuotient x y 128 = x * 2 ^ 128 / y := Nat.mul_one _

/-- The fraction bits computed and those filled with zeros are 128 together. -/
theorem mul_two_pow_split (x : Nat) {e : Nat} (he : e ≤ 128) :
    x * 2 ^ 128 = x * 2 ^ e * 2 ^ (128 - e) := by
  rw [Nat.mul_assoc, ← Nat.pow_add, Nat.add_sub_cancel' he]

theorem scaledQuotient_le (x y : Nat) {e : Nat} (he : e ≤ 128) :
    scaledQuotient x y e ≤ x * 2 ^ 128 / y := by
  rw [scaledQuotient, mul_two_pow_split x he, Nat.mul_comm, Nat.mul_comm (x * 2 ^ e)]
  exact Nat.mul_div_le_mul_div_assoc ..

theorem lt_scaledQuotient_add (x : Nat) {y e : Nat} (hy : y ≠ 0) (he : e ≤ 128) :
    x * 2 ^ 128 / y < scaledQuotient x y e + 2 ^ (128 - e) := by
  have hpos := Nat.pos_of_ne_zero hy
  rw [scaledQuotient, mul_two_pow_split x he, ← Nat.succ_mul, Nat.div_lt_iff_lt_mul hpos,
    Nat.mul_right_comm _ _ y]
  exact Nat.mul_lt_mul_of_pos_right (Nat.lt_mul_of_div_lt (Nat.lt_succ_self _) hpos) (Nat.two_pow_pos _)

/-- Multiplying the quotient back gives the dividend exactly when the division left no remainder. -/
theorem scaledQuotient_mul_eq_iff (x y : Nat) {e : Nat} (he : e ≤ 128) :
    scaledQuotient x y e * y = x * 2 ^ 128 ↔ x * 2 ^ e % y = 0 := by
  rw [scaledQuotient, mul_two_pow_split x he, Nat.mul_right_comm, Nat.mul_left_inj (Nat.two_pow_pos _).ne',
    ← Nat.dvd_iff_div_mul_eq, Nat.dvd_iff_mod_eq_zero]

/-- With a full budget the quotient is the exact truncated one, and fits a word. -/
theorem scaledQuotient_lt_of_budget {x y : Nat} (hx : x ≠ 0) (hx2 : x < 2 ^ 256) (hy : y ≠ 0)
    (hy2 : y < 2 ^ 256) (hp : 128 ≤ clz256 x + ctz256 y) :
    scaledQuotient x y (min (clz256 x + ctz256 y) 128) < 2 ^ 256 := by
  rw [Nat.min_eq_right hp, scaledQuotient_full]
  exact quotient_lt_of_budget (Nat.pos_of_ne_zero hx) hx2 (Nat.pos_of_ne_zero hy) hy2 hp

/-- DIVMAG in closed form: its overflow test needs no guard on the budget. -/
theorem divMagOp_eq {x y : Nat} (hx2 : x < 2 ^ 256) (hy2 : y < 2 ^ 256) (f : RoundingFlags) {e r : Nat}
    (he : e = min (clz256 x + ctz256 y) 128) (hr : r = scaledQuotient x y e) : divMagOp x y f =
    if y = 0 then .error .divisionByZeroError
    else if x = 0 then .ok 0
    else if clz256 x + ctz256 y < 64 then .error .precisionError
    else if 2 ^ 256 ≤ r then .error .overflowError
    else if f.ido = false ∧ r = 0 then .error .precisionLossError
    else .ok (roundUpMag f (x * 2 ^ e % y != 0) r) := by
  rcases eq_or_ne y 0 with rfl | hy
  · rw [divMagOp, if_pos rfl, if_pos rfl]
  rcases eq_or_ne x 0 with rfl | hx
  · rw [divMagOp, if_neg hy, if_neg hy, if_pos rfl, if_pos rfl]
  have hrescale : rescale ((x <<< clz256 x) / (y >>> ctz256 y)) (clz256 x + ctz256 y) = r := by
    rw [hr, he]
    exact rescale_quotient (Nat.pos_of_ne_zero hx) hx2 (Nat.pos_of_ne_zero hy) hy2
  have hover : clz256 x + ctz256 y < 128 ∧ 2 ^ 256 ≤ r ↔ 2 ^ 256 ≤ r := by
    refine and_iff_right_of_imp fun hr2 => not_le.mp fun hp => hr2.not_gt ?_
    rw [hr, he]
    exact scaledQuotient_lt_of_budget hx hx2 hy hy2 hp
  have hinexact : (r * y != x * 2 ^ 128) = (x * 2 ^ e % y != 0) := by
    rw [Bool.eq_iff_iff, bne_iff_ne, bne_iff_ne, hr]
    exact (scaledQuotient_mul_eq_iff x y (he ▸ Nat.min_le_right ..)).not
  simp only [divMagOp, hrescale, hover, hinexact]

/-- `ROUND_UP` on a magnitude, in words. -/
theorem bits256_roundUpMag (f : RoundingFlags) (inexact : Bool) (r : Nat) :
    bits256 (roundUpMag f inexact r) =
      if f.ru = true ∧ inexact = true ∧ r < 2 ^ 255 - 1 then BitVec.ofNat 256 (r + 1)
      else BitVec.ofNat 256 r := by
  have hbound : (r : Int) < MAX_RAW ↔ r < 2 ^ 255 - 1 := by
    simp only [MAX_RAW]
    omega
  simp only [bits256_natCast, roundUpMag, hbound, apply_ite (BitVec.ofNat 256)]

/-- The outcome of DIVMAG on two words, with the parts of its closed form named. -/
theorem outcome_divMag (f : RoundingFlags) (a b : Word) {p e r : Nat} (hp : p = clz256 (u256 a) + ctz256 (u256 b))
    (he : e = min p 128) (hr : r = scaledQuotient (u256 a) (u256 b) e) : outcomeOf (answer (.divMag f) a b) =
    if u256 b = 0 then ((0, 3) : Word × StatusCode)
    else if u256 a = 0 then (0, 0)
    else if p < 64 then (0, 4)
    else if 2 ^ 256 ≤ r then (0, 2)
    else if f.ido = false ∧ r = 0 then (0, 5)
    else (bits256 (roundUpMag f (u256 a * 2 ^ e % u256 b != 0) r), 0) := by
  subst hp
  rw [answer, divMagOp_eq (u256_lt a) (u256_lt b) f he hr]
  simp only [apply_ite (Except.map Int.ofNat), apply_ite outcomeOf]
  rfl

/-- Settles O45: the closed form of DIVMAG through its outcome, and the bounds of the scaled quotient. -/
theorem divMagHasItsClosedForm : Obligations.DivMagHasItsClosedForm := by
  refine ⟨fun f => (decode_flagWord_iff (by decide)).mpr ⟨rfl, rfl⟩, ?_⟩
  rintro s f x y p e r rfl rfl rfl he hr
  replace hr : r = scaledQuotient s.aL.toNat s.bL.toNat e := hr
  refine ⟨?_, fun hx hy hp => ?_, fun hx hy hp => ?_⟩
  · rw [completes_iff, outcome_divMag f s.aL s.bL rfl he hr]
    simp only [bits256_roundUpMag, bne_iff_ne, apply_ite (Prod.mk · (0 : StatusCode))]
  · have hfull : e = 128 := he.trans (Nat.min_eq_right hp)
    refine ⟨by rw [hr, hfull, scaledQuotient_full], ?_⟩
    rw [hr, he]
    exact scaledQuotient_lt_of_budget hx s.aL.isLt hy s.bL.isLt hp
  · obtain rfl := he.trans (Nat.min_eq_left hp.le)
    exact hr ▸ ⟨scaledQuotient_le _ _ hp.le, lt_scaledQuotient_add _ hy hp.le⟩

/-! ### The signed divide (R161) -/

/-- DIV with its two `abs` tests, which raise the same kind, as one. -/
theorem divOp_eq (a b : Int) (f : RoundingFlags) : divOp a b f =
    if a = MIN_RAW ∨ b = MIN_RAW then .error .overflowError
    else reattachSign a b (divMagOp a.natAbs b.natAbs f) := by
  simp only [divOp, ite_or]

theorem natAbs_s256_lt (w : Word) : (s256 w).natAbs < 2 ^ 256 := by
  have hle := natAbs_s256_le w
  omega

theorem decode_flagWord_div (f : RoundingFlags) : decode (flagWord 0x0F f) = .ok (.div f) :=
  (decode_flagWord_iff (by decide)).mpr ⟨rfl, rfl⟩

/-- Settles O46: DIVMAG reads the magnitude words as absolute values, and the sign step reads its outcome. -/
theorem divIsSignedDivMag : Obligations.DivIsSignedDivMag := by
  refine ⟨decode_flagWord_div, fun s f m hm => ?_⟩
  have hword : decode (flagWord 0x0E f) = .ok (.divMag f) := (decode_flagWord_iff (by decide)).mpr ⟨rfl, rfl⟩
  rw [execute_of_decode hword, answer, u256_magnitude, u256_magnitude] at hm
  rw [completes_iff, answer, divOp_eq, outcomeOf_guard,
    outcomeOf_reattachSign s.aL s.bL (divMagOp_lt f (natAbs_s256_lt _) (natAbs_s256_lt _)) hm]
  simp only [eq_intMin_iff]
  rfl

/-! ### The signed integer divide (R162) -/

/-- A quotient is 0 exactly when the dividend is smaller in size than the divisor. -/
theorem tdiv_eq_zero_iff (a : Int) {b : Int} (hb : b ≠ 0) : tdiv a b = 0 ↔ a.natAbs < b.natAbs := by
  rw [tdiv, ← Int.natAbs_eq_zero, Int.natAbs_tdiv]
  exact Nat.div_eq_zero_iff_lt (Int.natAbs_pos.mpr hb)

/-- The divisor of an inexact quotient is at least 2 in size, so the quotient is below `MAX_RAW`. -/
theorem tdiv_lt_of_inexact (a : Word) {b : Int} (hb : b ≠ 0) (hrem : trem (s256 a) b ≠ 0) :
    tdiv (s256 a) b < MAX_RAW := by
  have hone : b.natAbs ≠ 1 := by
    intro h
    apply hrem
    rw [trem_eq, ← Int.natAbs_eq_zero, Int.natAbs_tmod, h, Nat.mod_one]
  have hhalf : (tdiv (s256 a) b).natAbs ≤ (s256 a).natAbs / 2 := by
    rw [tdiv, Int.natAbs_tdiv]
    exact Nat.div_le_div_left (by omega) two_pos
  have hle := natAbs_s256_le a
  simp only [MAX_RAW]
  omega

/-- The truncated quotient of two words, but for `MIN_RAW / -1`, is that of their signed division. -/
theorem bits256_tdiv {a b : Word} (h : ¬(s256 a = MIN_RAW ∧ s256 b = -1)) :
    bits256 (tdiv (s256 a) (s256 b)) = a.sdiv b := by
  have hne : a ≠ BitVec.intMin 256 ∨ b ≠ -1#256 := by
    rw [← not_and_or, eq_intMin_iff, ← BitVec.toInt_inj]
    exact h
  rw [tdiv, ← BitVec.toInt_sdiv_of_ne_or_ne a b hne, bits256_s256]

theorem trem_ne_zero_iff (a b : Word) : trem (s256 a) (s256 b) ≠ 0 ↔ a.srem b ≠ 0 := by
  have hrem : s256 (a.srem b) = (s256 a).tmod (s256 b) := BitVec.toInt_srem a b
  rw [trem_eq, ← hrem]
  exact (eq_zero_iff _).not.symm

/-- `ROUND_UP` on the quotient, in words, without the bound of the rule. -/
theorem bits256_roundUpInt {a b : Word} (hb : b ≠ 0) (h : ¬(s256 a = MIN_RAW ∧ s256 b = -1))
    (f : RoundingFlags) : bits256 (roundUpInt f (trem (s256 a) (s256 b) != 0) (tdiv (s256 a) (s256 b))) =
      if f.ru = true ∧ a.srem b ≠ 0 then a.sdiv b + 1 else a.sdiv b := by
  have hbound : trem (s256 a) (s256 b) ≠ 0 ∧ tdiv (s256 a) (s256 b) < MAX_RAW ↔ a.srem b ≠ 0 := by
    rw [← trem_ne_zero_iff]
    exact and_iff_left_of_imp (tdiv_lt_of_inexact a ((eq_zero_iff b).not.mp hb))
  have hone : bits256 1 = 1 := rfl
  simp only [roundUpInt, bne_iff_ne, hbound, apply_ite bits256, bits256_add, bits256_tdiv h, hone]

theorem outcome_divInt (f : RoundingFlags) (a b : Word) : outcomeOf (answer (.divInt f) a b) =
    if b = 0 then ((0, 3) : Word × StatusCode)
    else if a = BitVec.intMin 256 ∧ s256 b = -1 then (0, 2)
    else if f.ido = false ∧ 0 < s256 a ∧ tdiv (s256 a) (s256 b) = 0 then (0, 5)
    else (bits256 (roundUpInt f (trem (s256 a) (s256 b) != 0) (tdiv (s256 a) (s256 b))), 0) := by
  simp only [answer, divIntOp, outcomeOf_guard, eq_zero_iff, eq_intMin_iff]
  rfl

/-- Settles O47: past a zero divisor and `MIN_RAW / -1`, DIVINT is the signed division of words. -/
theorem divIntTruncatesAndRoundsUpward : Obligations.DivIntTruncatesAndRoundsUpward := by
  refine ⟨fun f => (decode_flagWord_iff (by decide)).mpr ⟨rfl, rfl⟩, fun s f => ?_⟩
  rw [completes_iff, outcome_divInt]
  split
  · rfl
  · next hb =>
    split
    · rfl
    · next hedge =>
      rw [eq_intMin_iff] at hedge
      simp only [tdiv_eq_zero_iff _ ((eq_zero_iff _).not.mp hb), bits256_roundUpInt hb hedge,
        apply_ite (Prod.mk · (0 : StatusCode))]

/-! ### The laws (R163) -/

theorem ctzBits_two_pow {j k : Nat} (h : j < k) : ctzBits k (2 ^ j) = j := by
  induction j generalizing k with
  | zero =>
    obtain ⟨k, rfl⟩ := Nat.exists_eq_add_of_lt h
    simp [ctzBits]
  | succ j ih =>
    obtain ⟨k, rfl⟩ := Nat.exists_eq_add_of_lt h
    rw [ctzBits, if_neg (by omega), Nat.pow_succ, Nat.mul_div_cancel _ two_pos, ih (by omega)]

/-- Divided by one, a word has its full budget, loses no bits and leaves no remainder to round by. -/
theorem divMagOp_one {x : Nat} (h : x < 2 ^ 256) (f : RoundingFlags) : divMagOp x (2 ^ 128) f = .ok x := by
  have hctz : ctz256 (2 ^ 128) = 128 := ctzBits_two_pow (by norm_num)
  have hbudget : 128 = min (clz256 x + ctz256 (2 ^ 128)) 128 := by omega
  have hexact : x = scaledQuotient x (2 ^ 128) 128 := by
    rw [scaledQuotient_full, Nat.mul_div_cancel _ (Nat.two_pow_pos 128)]
  rw [divMagOp_eq h (by norm_num) f hbudget hexact, if_neg (by norm_num)]
  split
  · next h0 => rw [h0]
  · next h0 =>
    rw [if_neg (by omega), if_neg (by omega), if_neg (fun hloss => h0 hloss.2), Nat.mul_mod_left]
    exact congrArg Except.ok (roundUpMag_exact f x)

theorem divMagOp_zero (x : Nat) (f : RoundingFlags) : divMagOp x 0 f = .error .divisionByZeroError := rfl

/-- A magnitude below the top bit gets back the sign it was taken from, if the other operand is not negative. -/
theorem reattachSign_natAbs {x b : Int} (hx : x.natAbs < 2 ^ 255) (hb : 0 ≤ b) :
    reattachSign x b (.ok x.natAbs) = .ok x := by
  rw [reattachSign_of_lt x b hx, combinedSign_natAbs x hb]

/-- With a divisor other than `MIN_RAW` only the first `abs` can fail. -/
theorem divOp_of_ne {b : Int} (hb : b ≠ MIN_RAW) (a : Int) (f : RoundingFlags) : divOp a b f =
    if a = MIN_RAW then .error .overflowError
    else reattachSign a b (divMagOp a.natAbs b.natAbs f) := by
  rw [divOp, if_neg hb]

theorem natAbs_s256_lt_of_ne {w : Word} (h : s256 w ≠ MIN_RAW) : (s256 w).natAbs < 2 ^ 255 := by
  obtain ⟨hge, hle⟩ := fitsWord_signed.mp (fitsWord_s256 w)
  simp only [MIN_RAW] at h
  omega

theorem divOp_one (w : Word) (f : RoundingFlags) : divOp (s256 w) FIXED_ONE f =
    if s256 w = MIN_RAW then .error .overflowError else .ok (s256 w) := by
  rw [divOp_of_ne (by decide)]
  split
  · rfl
  · next hmin =>
    have hone : FIXED_ONE.natAbs = 2 ^ 128 := rfl
    rw [hone, divMagOp_one (natAbs_s256_lt w), reattachSign_natAbs (natAbs_s256_lt_of_ne hmin) (by decide)]

theorem divOp_zero (a : Int) (f : RoundingFlags) : divOp a 0 f =
    if a = MIN_RAW then .error .overflowError else .error .divisionByZeroError := by
  rw [divOp_of_ne (by decide), Int.natAbs_zero, divMagOp_zero, reattachSign]

/-- Settles O48: both laws hold of `divOp`, the first under every flag setting. -/
theorem dividerLaws : Obligations.DividerLaws := by
  refine ⟨fun x f => ?_, fun x => ?_⟩
  · have hone : s256 (BitVec.ofInt 256 (2 ^ 128)) = FIXED_ONE := rfl
    rw [execute_of_decode (decode_flagWord_div f), answer, hone, divOp_one, outcomeOf_ite_error, bits256_s256]
    simp only [eq_intMin_iff]
    rfl
  · have hzero : s256 0 = 0 := rfl
    refine (execute_of_decode (decode_encode (.div .zero)) x 0).trans ?_
    rw [answer, hzero, divOp_zero, outcomeOf_guard]
    simp only [eq_intMin_iff]
    rfl

end Sys2Proof.Proofs
end

section
/-! PROOFS. O49 to O51: the square root (spec/44_sqrt.md R180 to R182). On a word the digit method of the model is
the library's `Nat.sqrt`, which the outcomes of SQRT and SQRTU are stated with; a Newton iterate never falls below
that root, and the loop can only stop at it. -/

namespace Sys2Proof.Proofs

open Sys2Proof.Machine Sys2Proof.Safety Sys2Proof.Laws

/-! ### The root of a word (R181) -/

theorem isqrt_eq_sqrt {n : Nat} (h : n < 2 ^ 256) : isqrt n = Nat.sqrt n :=
  isqrt_unique h (Nat.sqrt_le n) (Nat.lt_succ_sqrt n)

theorem sqrt_u256_lt (w : Word) : Nat.sqrt (u256 w) < 2 ^ 128 :=
  isqrt_eq_sqrt (u256_lt w) ▸ isqrt_lt (u256 w) (u256_lt w)

theorem outcome_sqrtU (a b : Word) :
    outcomeOf (answer .sqrtU a b) = (BitVec.ofNat 256 (Nat.sqrt (u256 a)), 0) := by
  simp only [answer, sqrtUOp, isqrt_eq_sqrt (u256_lt a), outcomeOf, bits256_natCast, statusOk]

/-- Settles O50: the root in the outcome of SQRTU is the library's. -/
theorem sqrtUIsTheFloorOfTheRoot : Obligations.SqrtUIsTheFloorOfTheRoot :=
  ⟨decode_encode .sqrtU, fun s => ⟨Nat.sqrt (u256 s.aL), Nat.sqrt_le _, Nat.lt_succ_sqrt _, sqrt_u256_lt s.aL,
    (completes_iff _ _ _).mpr (outcome_sqrtU _ _)⟩⟩

/-! ### The reference loop (R182) -/

theorem newtonLoop_of_le {x y : Nat} (h : x ≤ y) (n fuel : Nat) : newtonLoop n fuel x y = some x := by
  cases fuel <;> exact if_pos h

theorem newtonLoop_zero_of_lt {x y : Nat} (h : y < x) (n : Nat) : newtonLoop n 0 x y = none :=
  if_neg h.not_ge

theorem newtonLoop_succ_of_lt {x y : Nat} (h : y < x) (n fuel : Nat) :
    newtonLoop n (fuel + 1) x y = newtonLoop n fuel ((x + y) / 2) (n / ((x + y) / 2)) :=
  if_neg h.not_ge

/-- The loop starts with `y` the quotient by `x`, as every iteration leaves it; for 0 the start value of `y` does not
matter. -/
theorem newtonLoop_start (n fuel : Nat) : newtonLoop n fuel n 1 = newtonLoop n fuel n (n / n) := by
  rcases Nat.eq_zero_or_pos n with rfl | hn
  · rw [newtonLoop_of_le (Nat.zero_le _), newtonLoop_of_le (Nat.zero_le _)]
  · rw [Nat.div_self hn]

/-- An iterate is not below the root: the mean of `x` and the exact quotient is at least the geometric mean. -/
theorem sqrt_le_newtonStep (n : Nat) {x : Nat} (hx : 0 < x) : Nat.sqrt n ≤ (x + n / x) / 2 := by
  have hroot := Nat.sqrt_le n
  have hquotient : n < x * (n / x + 1) := Nat.lt_mul_div_succ n hx
  by_contra hlt
  have hsum : x + (n / x + 1) ≤ 2 * Nat.sqrt n := by omega
  refine lt_irrefl (4 * n) ?_
  calc 4 * n < 4 * x * (n / x + 1) := by rw [mul_assoc]; omega
    _ ≤ (x + (n / x + 1)) ^ 2 := four_mul_le_sq_add _ _
    _ ≤ (2 * Nat.sqrt n) ^ 2 := Nat.pow_le_pow_left hsum 2
    _ = 4 * (Nat.sqrt n * Nat.sqrt n) := by ring
    _ ≤ 4 * n := Nat.mul_le_mul_left 4 hroot

/-- Where the loop stops, the square of `x` is not above `n`. -/
theorem eq_sqrt_of_stop {n fuel x r : Nat} (hroot : Nat.sqrt n ≤ x) (hstop : x ≤ n / x)
    (h : newtonLoop n fuel x (n / x) = some r) : r = Nat.sqrt n := by
  rw [newtonLoop_of_le hstop] at h
  obtain rfl := Option.some.inj h
  exact le_antisymm (Nat.le_sqrt.mpr (Nat.mul_le_of_le_div x x n hstop)) hroot

/-- From above the root the loop can only end at it. -/
theorem newtonLoop_eq_sqrt {n fuel x r : Nat} (hroot : Nat.sqrt n ≤ x)
    (h : newtonLoop n fuel x (n / x) = some r) : r = Nat.sqrt n := by
  induction fuel generalizing x with
  | zero =>
    rcases le_or_gt x (n / x) with hstop | hgo
    · exact eq_sqrt_of_stop hroot hstop h
    · rw [newtonLoop_zero_of_lt hgo] at h
      cases h
  | succ fuel ih =>
    rcases le_or_gt x (n / x) with hstop | hgo
    · exact eq_sqrt_of_stop hroot hstop h
    · rw [newtonLoop_succ_of_lt hgo] at h
      exact ih (sqrt_le_newtonStep n (Nat.zero_lt_of_lt hgo)) h

/-- The iterates decrease, so the first of them bounds the number of iterations. -/
theorem exists_newtonLoop_eq_some (n : Nat) {fuel x : Nat} (h : x ≤ fuel) :
    ∃ r, newtonLoop n fuel x (n / x) = some r := by
  induction fuel generalizing x with
  | zero => exact ⟨x, newtonLoop_of_le (h.trans (Nat.zero_le _)) n 0⟩
  | succ fuel ih =>
    rcases le_or_gt x (n / x) with hstop | hgo
    · exact ⟨x, newtonLoop_of_le hstop n _⟩
    · rw [newtonLoop_succ_of_lt hgo]
      exact ih (by omega)

/-- Settles O51: the loop ends, only at the root, and SQRTU gives the root. -/
theorem newtonLoopIsTheRootOfSqrtU : Obligations.NewtonLoopIsTheRootOfSqrtU := by
  refine ⟨fun n => ?_, fun x b fuel root h => ?_⟩
  · obtain ⟨root, h⟩ := exists_newtonLoop_eq_some n (le_refl n)
    obtain rfl := newtonLoop_eq_sqrt (Nat.sqrt_le_self n) h
    exact ⟨n, Nat.sqrt n, (newtonLoop_start n n).trans h, Nat.sqrt_le n, Nat.lt_succ_sqrt n⟩
  · rw [newtonLoop_start] at h
    obtain rfl := newtonLoop_eq_sqrt (Nat.sqrt_le_self _) h
    exact (execute_of_decode (decode_encode .sqrtU) x b).trans (outcome_sqrtU x b)

/-! ### The root of a fixed-point number (R180) -/

/-- SQRT without its `PrecisionError`, which a root of 0 never is: only 0 has it. -/
theorem sqrtOp_eq (w : Word) : sqrtOp (s256 w) =
    if s256 w < 0 then .error .domainError else .ok (shiftLeftInt (Nat.sqrt (u256 w)) 64) := by
  rw [sqrtOp]
  split
  · rfl
  · next hsign =>
    have hvalue := s256_eq_u256 (not_lt.mp hsign)
    have hroot : ¬(Nat.sqrt (u256 w) = 0 ∧ (u256 w : Int) ≠ 0) := by
      rw [Nat.sqrt_eq_zero]
      omega
    rw [hvalue, Int.toNat_natCast, isqrt_eq_sqrt (u256_lt w)]
    exact if_neg hroot

theorem shiftLeftInt_natCast (r k : Nat) : shiftLeftInt r k = (r * 2 ^ k : Nat) := by
  rw [shiftLeftInt]
  norm_cast

theorem outcome_sqrt (a b : Word) : outcomeOf (answer .sqrt a b) =
    if a.msb then ((0, 6) : Word × StatusCode) else (BitVec.ofNat 256 (Nat.sqrt (u256 a) * 2 ^ 64), 0) := by
  rw [answer, sqrtOp_eq, outcomeOf_ite_error, shiftLeftInt_natCast, bits256_natCast, msb_eq_neg]
  simp only [decide_eq_true_eq, ErrKind.code]

theorem squareOp_ok {x v : Int} (h : squareOp x = .ok v) : v = x * x / 2 ^ 128 := by
  rw [squareOp_eq] at h
  split at h
  · cases h
  · split at h
    · cases h
    · cases h
      rfl

/-- A successful MUL of a word by itself leaves in RESULT, not negative, the top of the square of its magnitude. -/
theorem value_of_execute_square {x m : Word} (h : execute 0x0B x x = (m, 0)) :
    m.msb = false ∧ u256 m = (s256 x).natAbs * (s256 x).natAbs / 2 ^ 128 := by
  have hmul : squareOp (s256 x) = .ok (s256 m) := mulOp_of_execute (f := .zero) h
  have hvalue : s256 m = ((s256 x).natAbs * (s256 x).natAbs / 2 ^ 128 : Nat) := by
    rw [squareOp_ok hmul, ← Int.natAbs_mul_self]
    norm_cast
  have hnonneg : 0 ≤ s256 m := hvalue ▸ Int.natCast_nonneg _
  refine ⟨by simpa [msb_eq_neg] using hnonneg, ?_⟩
  rw [s256_eq_u256 hnonneg] at hvalue
  exact_mod_cast hvalue

/-- Rounding down before the root is taken does not change its floor. -/
theorem sqrt_mul_self_div (x : Nat) {k : Nat} (hk : 0 < k) : Nat.sqrt (x * x / (k * k)) = x / k := by
  refine eq_of_forall_le_iff fun a => ?_
  rw [Nat.le_sqrt, Nat.le_div_iff_mul_le (Nat.mul_pos hk hk), Nat.le_div_iff_mul_le hk, Nat.mul_mul_mul_comm,
    Nat.mul_self_le_mul_self_iff]

/-- SQRT of a successful square clears the low 64 bits of the magnitude. -/
theorem execute_sqrt_square {x m : Word} (h : execute 0x0B x x = (m, 0)) (b : Word) :
    execute 0x11 m b = (BitVec.ofNat 256 ((s256 x).natAbs / 2 ^ 64 * 2 ^ 64), 0) := by
  obtain ⟨hsign, hvalue⟩ := value_of_execute_square h
  have hroot : Nat.sqrt (u256 m) = (s256 x).natAbs / 2 ^ 64 := by
    rw [hvalue]
    exact sqrt_mul_self_div _ (Nat.two_pow_pos 64)
  refine (execute_of_decode (decode_encode .sqrt) m b).trans ?_
  rw [outcome_sqrt, hsign, hroot]
  rfl

/-- Settles O49: the completion is the outcome of SQRT, and the root of a square is its magnitude less the bits that
the shift leaves clear. -/
theorem sqrtIsTheShiftedRoot : Obligations.SqrtIsTheShiftedRoot := by
  refine ⟨decode_encode .sqrt, fun x m b h => ⟨_, execute_sqrt_square h b, ?_⟩, fun s => ?_⟩
  · have hlt := natAbs_s256_lt x
    simp only [s256, BitVec.toNat_ofNat] at hlt ⊢
    omega
  · exact ⟨Nat.sqrt (u256 s.aL), Nat.sqrt_le _, Nat.lt_succ_sqrt _, sqrt_u256_lt s.aL,
      (completes_iff _ _ _).mpr (outcome_sqrt _ _)⟩

end Sys2Proof.Proofs
end

section
/-! PROOFS. O52 and O53: the bit counts (spec/45_bitcount.md R190, R191). The laws of `clz256` and `ctz256` place a
nonzero operand between two powers of two, and write it as an odd multiple of one; both are read here on its bits. -/

namespace Sys2Proof.Proofs

open Sys2Proof.Machine Sys2Proof.Safety Sys2Proof.Laws

theorem u256_pos {w : Word} (hw : w ≠ 0) : 0 < u256 w := Nat.pos_of_ne_zero (mt (u256_eq_zero_iff w).mp hw)

theorem outcomeOf_ok_natCast (n : Nat) : outcomeOf (.ok (n : Int)) = (BitVec.ofNat 256 n, 0) := by
  rw [outcomeOf, bits256_natCast, statusOk]

/-! ### The most significant set bit (R190) -/

/-- The powers of two around a nonzero word give its top bit, and `0` at every place above it. -/
theorem clz256_bits {w : Word} (hw : w ≠ 0) : clz256 (u256 w) < 256 ∧
    w.getLsbD (255 - clz256 (u256 w)) = true ∧ ∀ j, 255 - clz256 (u256 w) < j → w.getLsbD j = false := by
  obtain ⟨hk, hlow, hhigh⟩ := clz256_spec (u256 w) (u256_pos hw) (u256_lt w)
  refine ⟨hk, Nat.testBit_of_two_pow_le_and_two_pow_add_one_gt hlow ?_, fun j hj => Nat.testBit_lt_two_pow ?_⟩
  · rwa [show 255 - clz256 (u256 w) + 1 = 256 - clz256 (u256 w) by omega]
  · exact hhigh.trans_le (Nat.pow_le_pow_right two_pos (by omega))

theorem outcome_clz (a b : Word) : outcomeOf (answer .clz a b) = (BitVec.ofNat 256 (clz256 (u256 a)), 0) :=
  outcomeOf_ok_natCast _

/-- Settles O52: CLZ completes with `clz256` of its operand. -/
theorem clzFindsTheTopBit : Obligations.ClzFindsTheTopBit := by
  refine ⟨decode_encode .clz, fun s => ⟨clz256 (u256 s.aL), (completes_iff _ _ _).mpr (outcome_clz _ _), ?_⟩⟩
  split
  · next hzero => rw [hzero]; exact clz256_zero
  · next hw => exact clz256_bits hw

/-! ### The least significant set bit (R191) -/

/-- The bits of an odd multiple of a power of two: `1` at its exponent, `0` at every place below. -/
theorem ctz256_bits {w : Word} (hw : w ≠ 0) : ctz256 (u256 w) < 256 ∧
    w.getLsbD (ctz256 (u256 w)) = true ∧ ∀ j, j < ctz256 (u256 w) → w.getLsbD j = false := by
  obtain ⟨hk, m, hodd, hm⟩ := ctz256_spec (u256 w) (u256_pos hw) (u256_lt w)
  have hbit (j : Nat) : w.getLsbD j = (decide (ctz256 (u256 w) ≤ j) && m.testBit (j - ctz256 (u256 w))) :=
    (congrArg (Nat.testBit · j) hm).trans (Nat.testBit_mul_two_pow ..)
  refine ⟨hk, ?_, fun j hj => ?_⟩
  · simp [hbit, hodd]
  · simp [hbit, hj]

theorem outcome_ctz (a b : Word) : outcomeOf (answer .ctz a b) = (BitVec.ofNat 256 (ctz256 (u256 a)), 0) :=
  outcomeOf_ok_natCast _

/-- Settles O53: CTZ completes with `ctz256` of its operand. -/
theorem ctzFindsTheBottomBit : Obligations.CtzFindsTheBottomBit := by
  refine ⟨decode_encode .ctz, fun s => ⟨ctz256 (u256 s.aL), (completes_iff _ _ _).mpr (outcome_ctz _ _), ?_⟩⟩
  split
  · next hzero => rw [hzero]; exact ctz256_zero
  · next hw => exact ctz256_bits hw

end Sys2Proof.Proofs
end

section
/-! PROOFS. O7, O16, O23 to O25: STATUS codes, and the outcome that `Execute` gives a command word, legal or illegal
(spec/60_exceptions.md R201 to R204). -/

namespace Sys2Proof.Proofs

open Sys2Proof.Machine Sys2Proof.Safety Sys2Proof.Laws

/-! ### The codes (R201) -/

theorem statusKind_code (k : ErrKind) : statusKind k.code = some k := by
  cases k <;> rfl

theorem map_code_statusKind : ∀ c : StatusCode, c ≠ 0 → (statusKind c).map ErrKind.code = some c := by
  decide

theorem code_injective {k k' : ErrKind} (h : k.code = k'.code) : k = k' :=
  Option.some.inj (by rw [← statusKind_code k, h, statusKind_code])

/-- Settles O23: `statusKind` and `ErrKind.code` undo each other on the nonzero codes. -/
theorem statusCodesAreAsTabled : Obligations.StatusCodesAreAsTabled := by
  refine ⟨rfl, rfl, rfl, rfl, rfl, rfl, rfl, rfl, statusKind_code, fun c hc => ?_⟩
  obtain ⟨k, -, hk⟩ := Option.map_eq_some_iff.mp (map_code_statusKind c hc)
  exact ⟨k, hk⟩

/-! ### Completion (R202 to R204) -/

/-- Settles O7: the four conditions make the next edge a completion. -/
theorem stepRunsDecodedCommand : Obligations.StepRunsDecodedCommand :=
  fun _ _ hrst hdone hbusy hrem => step_eq_exec (edge_eq_completion_iff.mpr ⟨hrst, hdone, hbusy, hrem⟩)

/-- Settles O24: an instruction completes with its answer, which is `Execute` of the word that encodes it. -/
theorem everyCommandCompletesWithExecute : Obligations.EveryCommandCompletesWithExecute :=
  fun i _ => (completes_iff _ _ _).mpr (execute_of_decode (decode_encode i) _ _).symm

/-- Settles O16: the command completes after its latency as every other does, and `Execute` of an illegal word is
RESULT 0 and STATUS 7. -/
theorem illegalCommandCompletesWithStatusSeven : Obligations.IllegalCommandCompletesWithStatusSeven := by
  intro s p waits rest hdone hbusy hpins hrst hstart hwaits hlength hillegal
  obtain ⟨-, -, hrun⟩ :=
    acceptedCommandCompletesAfterItsLatency s p waits rest hdone hbusy hpins hrst hstart hwaits hlength
  rwa [execute_of_illegal (not_exists.mpr hillegal)] at hrun

/-- A nonzero STATUS is an error's, which writes 0 to RESULT. -/
theorem outcomeOf_result_of_error {ans : Answer} (h : (outcomeOf ans).2 ≠ 0) : (outcomeOf ans).1 = 0 := by
  cases ans with
  | ok v => exact absurd rfl h
  | error k => rfl

/-- Settles O25: an illegal word has RESULT 0, a legal one the outcome of an answer. -/
theorem errorsLeaveResultZero : Obligations.ErrorsLeaveResultZero := by
  intro c a b h
  by_cases hlegal : ∃ i, decode c = .ok i
  · obtain ⟨i, hi⟩ := hlegal
    rw [execute_of_decode hi] at h ⊢
    exact outcomeOf_result_of_error h
  · rw [execute_of_illegal hlegal]

end Sys2Proof.Proofs
end

section
/-! PROOFS. O26: the error kinds each operation can raise (spec/60_exceptions.md R200; spec/30_encoding.md R61;
spec/90_conflicts.md C10). First what it means that an answer raises only the kinds of a list, then one lemma per
operation. -/

namespace Sys2Proof.Proofs

open Sys2Proof.Machine Sys2Proof.Safety Sys2Proof.Laws

/-! ### What an answer can raise -/

/-- If `x` is an error, its kind is in `ks`. -/
def RaisesOnly {α : Type} (ks : List ErrKind) (x : Except ErrKind α) : Prop := ∀ k, x = .error k → k ∈ ks

@[simp] theorem raisesOnly_ok {α : Type} {ks : List ErrKind} {v : α} :
    RaisesOnly ks (.ok v : Except ErrKind α) := by
  simp [RaisesOnly]

@[simp] theorem raisesOnly_error {α : Type} {ks : List ErrKind} {k : ErrKind} :
    RaisesOnly ks (.error k : Except ErrKind α) ↔ k ∈ ks := by
  simp [RaisesOnly]

@[simp] theorem raisesOnly_map {α β : Type} {ks : List ErrKind} {g : α → β} {x : Except ErrKind α} :
    RaisesOnly ks (x.map g) ↔ RaisesOnly ks x := by
  cases x <;> simp [Except.map]

@[simp] theorem raisesOnly_ite {α : Type} {ks : List ErrKind} {c : Prop} [Decidable c] {x y : Except ErrKind α} :
    RaisesOnly ks (if c then x else y) ↔ (c → RaisesOnly ks x) ∧ (¬c → RaisesOnly ks y) := by
  split <;> simp [*]

/-- An answer ends a command with `OK` or with the code of a kind it can raise. -/
theorem RaisesOnly.status {ks : List ErrKind} {ans : Answer} (h : RaisesOnly ks ans) :
    (outcomeOf ans).2 = 0 ∨ ∃ k ∈ ks, (outcomeOf ans).2 = k.code := by
  cases ans with
  | ok v => exact .inl rfl
  | error k => exact .inr ⟨k, h k rfl, rfl⟩

theorem mem_lossUnlessIgnored {f : RoundingFlags} {k : ErrKind} :
    k ∈ lossUnlessIgnored f ↔ f.ido = false ∧ k = .precisionLossError := by
  cases h : f.ido <;> simp [lossUnlessIgnored, h]

/-! ### The shared computations -/

theorem signedOrOverflow_raises (r : Int) : RaisesOnly [.overflowError] (signedOrOverflow r) := by
  simp [signedOrOverflow]

/-- The sign and top-bit step passes on the errors of the magnitude and adds `OverflowError`. -/
theorem reattachSign_raises (a b : Int) {ks : List ErrKind} {mag : Except ErrKind Nat} (h : RaisesOnly ks mag)
    (hoverflow : .overflowError ∈ ks) : RaisesOnly ks (reattachSign a b mag) := by
  obtain ⟨k, hk, e⟩ | ⟨r, -, -, e⟩ | ⟨r, -, -, e⟩ := reattachSign_cases a b mag
  · exact e ▸ raisesOnly_error.mpr (h k hk)
  · exact e ▸ raisesOnly_error.mpr hoverflow
  · exact e ▸ raisesOnly_ok

/-! ### Each operation -/

theorem mulMagOp_raises (x y : Nat) (f : RoundingFlags) : RaisesOnly (mayRaise (.mulMag f)) (mulMagOp x y f) := by
  obtain ⟨e, -⟩ | ⟨e, hido, -⟩ | ⟨e, -⟩ := mulMagOp_cases x y f
  · simp [e, mayRaise]
  · simp [e, mayRaise, mem_lossUnlessIgnored, hido]
  · simp [e]

theorem mulOp_raises (a b : Int) (f : RoundingFlags) : RaisesOnly (mayRaise (.mul f)) (mulOp a b f) := by
  have hoverflow : .overflowError ∈ mayRaise (.mul f) := by simp [mayRaise]
  have hsigned : RaisesOnly (mayRaise (.mul f)) (reattachSign a b (mulMagOp a.natAbs b.natAbs f)) :=
    reattachSign_raises a b (mulMagOp_raises _ _ f) hoverflow
  simp [mulOp, hoverflow, hsigned]

theorem mulIntOp_raises (x y : Int) : RaisesOnly [.overflowError] (mulIntOp x y) := by
  simp [mulIntOp, signedOrOverflow_raises]

theorem divMagOp_raises (x y : Nat) (f : RoundingFlags) : RaisesOnly (mayRaise (.divMag f)) (divMagOp x y f) := by
  obtain ⟨-, e⟩ | ⟨-, -, e⟩ | ⟨-, -, -, e⟩ | ⟨-, -, -, r, -, hcase⟩ := divMagOp_cases x y f
  · simp [e, mayRaise]
  · simp [e]
  · simp [e, mayRaise]
  · obtain ⟨-, -, e⟩ | ⟨hido, -, e⟩ | ⟨-, -, e⟩ := hcase
    · simp [e, mayRaise]
    · simp [e, mayRaise, mem_lossUnlessIgnored, hido]
    · simp [e]

theorem divOp_raises (a b : Int) (f : RoundingFlags) : RaisesOnly (mayRaise (.div f)) (divOp a b f) := by
  have hoverflow : .overflowError ∈ mayRaise (.div f) := by simp [mayRaise]
  have hsigned : RaisesOnly (mayRaise (.div f)) (reattachSign a b (divMagOp a.natAbs b.natAbs f)) :=
    reattachSign_raises a b (divMagOp_raises _ _ f) hoverflow
  simp [divOp, hoverflow, hsigned]

theorem divIntOp_raises (a b : Int) (f : RoundingFlags) : RaisesOnly (mayRaise (.divInt f)) (divIntOp a b f) := by
  simp +contextual [divIntOp, mayRaise, mem_lossUnlessIgnored]

theorem sqrtOp_raises (w : Word) : RaisesOnly [.domainError] (sqrtOp (s256 w)) := by
  simp [sqrtOp_eq]

/-! ### All operations -/

/-- No operation raises a kind that `mayRaise` does not list for it. -/
theorem answer_raises (i : Instr) (a b : Word) : RaisesOnly (mayRaise i) (answer i a b) := by
  cases i with
  | fromInt => simp [answer, fromIntOp, mayRaise]
  | toInt => exact raisesOnly_ok
  | fromUInt => simp [answer, fromUIntOp, mayRaise]
  | toUInt => simp [answer, toUIntOp, mayRaise]
  | add => exact signedOrOverflow_raises _
  | sub => exact signedOrOverflow_raises _
  | neg => simp [answer, negOp, mayRaise]
  | abs => simp [answer, absOp, mayRaise]
  | ceil => simp [answer, ceilOp, mayRaise]
  | mulMag f => exact raisesOnly_map.mpr (mulMagOp_raises _ _ f)
  | mul f => exact mulOp_raises _ _ f
  | mulInt => exact mulIntOp_raises _ _
  | square => exact mulOp_raises _ _ .zero
  | divMag f => exact raisesOnly_map.mpr (divMagOp_raises _ _ f)
  | div f => exact divOp_raises _ _ f
  | divInt f => exact divIntOp_raises _ _ f
  | sqrt => exact sqrtOp_raises a
  | sqrtU => exact raisesOnly_ok
  | clz => exact raisesOnly_ok
  | ctz => exact raisesOnly_ok
  | fixed1 => exact raisesOnly_ok

theorem illegalCommand_notMem_mayRaise (i : Instr) : .illegalCommand ∉ mayRaise i := by
  cases i <;> simp [mayRaise, mem_lossUnlessIgnored]

/-- A legal word never ends with `IllegalCommand`. -/
theorem status_ne_illegalCommand (i : Instr) (a b : Word) :
    (outcomeOf (answer i a b)).2 ≠ ErrKind.illegalCommand.code := by
  intro h
  obtain hok | ⟨k, hk, hcode⟩ := (answer_raises i a b).status
  · exact code_ne_zero _ (h.symm.trans hok)
  · exact illegalCommand_notMem_mayRaise i (code_injective (h.symm.trans hcode) ▸ hk)

/-- Settles O26: an operation ends with a kind that its answer can raise, and none can raise `IllegalCommand`. -/
theorem operationsRaiseOnlyTheirKinds : Obligations.OperationsRaiseOnlyTheirKinds := by
  refine ⟨fun i s => ?_, fun c a b => ⟨fun h i hi => ?_, fun hillegal => ?_⟩⟩
  · exact ⟨_, (completes_iff i s _).mpr rfl, (answer_raises i s.aL s.bL).status⟩
  · exact status_ne_illegalCommand i a b (execute_of_decode hi a b ▸ h)
  · rw [execute_of_illegal (not_exists.mpr hillegal)]
    rfl

end Sys2Proof.Proofs
end

section
/-! PROOFS. O9 to O11 and O13: what a reset edge leaves, that nothing runs before the first one, and that a `start`
while `BUSY = 1` leaves no trace (spec/70_reset_and_hazards.md R220 to R222, R224). -/

namespace Sys2Proof.Proofs

open Sys2Proof.Machine Sys2Proof.Safety Sys2Proof.Laws

/-! ### Reset (R220 to R222) -/

theorem sameToHost_of_not_busy {s : State} (hidle : s.busy = false) (c : Cmd) (a b : Word) (w : Nat) :
    SameToHost s { s with cmdL := c, aL := a, bL := b, remaining := w } :=
  ⟨rfl, rfl, rfl, by simp [hidle]⟩

/-- The latches and the countdown of an idle core never show, whatever the host does. -/
theorem runsAlike_of_not_busy {s : State} (hidle : s.busy = false) (c : Cmd) (a b : Word) (w n : Nat) :
    RunsAlike (runEdges n s) (runEdges n { s with cmdL := c, aL := a, bL := b, remaining := w }) :=
  hiddenStateNeverReachesThePorts _ _ (sameToHost_of_not_busy hidle c a b w) n

/-- Settles O9: the core is idle after reset, so its latches and countdown never show. -/
theorem resetValues : Obligations.ResetValues :=
  ⟨⟨rfl, rfl, rfl, rfl, outcome_eq_none reset_rvalid⟩, fun _ => runsAlike_of_not_busy reset_busy⟩

theorem step_of_rst {s : State} (hrst : s.sampled.rst = true) : step s = .next s.advancePins.applyReset :=
  step_of_reset (edge_eq_reset_iff.mpr hrst)

/-- Settles O10: the edge leaves an idle core after a reset, which hides its latches and may accept. -/
theorem resetWinsOverEverything : Obligations.ResetWinsOverEverything := by
  intro s hrst
  refine ⟨_, step_of_rst hrst, rfl, rfl, rfl, rfl, outcome_eq_none (applyReset_rvalid _), rfl,
    runsAlike_of_not_busy (applyReset_busy _), fun hlow hstart => ?_⟩
  have he : s.advancePins.applyReset.edge = .acceptance := edge_eq_acceptance_iff.mpr ⟨hlow, rfl, rfl, hstart⟩
  exact ⟨_, step_of_acceptance he, rfl, rfl, rfl, rfl⟩

theorem edge_eq_unspecified_iff {s : State} : s.edge = .unspecified ↔
    s.sampled.rst = false ∧ s.resetDone = false := by
  refine ⟨fun h => by simpa [h] using edge_spec s, fun ⟨hrst, hdone⟩ => ?_⟩
  simp [State.edge, hrst, hdone]

/-- Settles O11: before the first reset the next edge is one with no specified state, or the reset. -/
theorem nothingRunsBeforeTheFirstReset : Obligations.NothingRunsBeforeTheFirstReset := by
  intro s hdone
  refine ⟨fun hrst => ?_, fun hrst => ?_⟩
  · exact step_of_unspecified (edge_eq_unspecified_iff.mpr ⟨hrst, hdone⟩)
  · exact ⟨_, step_of_rst hrst, rfl, rfl, rfl⟩

/-! ### A start while busy (R224) -/

/-- Settles O13: the ports have no part in the edge of a busy core, which completes or works on. -/
theorem startWhileBusyIsDropped : Obligations.StartWhileBusyIsDropped := by
  intro s p rest hpins hdone hrst hbusy
  have hstep := step_of_busy (s := s) (sampled_of_pins hpins ▸ hrst) hdone hbusy
  obtain ⟨-, -, hports⟩ := acceptanceLatchesTheCommand s p rest hpins hdone hrst
  refine ⟨_, hstep, (hports hbusy .idle rfl).trans hstep, ?_⟩
  split
  · next hrem => simp [hpins, hrem]
  · next hrem => simp [hpins, hrem, hbusy]

end Sys2Proof.Proofs
end
